-- ==== Sys2Proof/Word.lean ====
section
/-! DEFINITION. The word of the core: a natural number, with the bound `2^W - 1` as a predicate.

A word (a memory cell's content, an address, an opcode, an operand) is a natural number restricted to
`[0, 2^W - 1]`, with `W` a parameter; the spec computes on unbounded naturals and slices no word
(00_scope.md §5, R1, R40). So a word is a `Nat` here and the restriction is `IsWord`. Log entry 1. -/

namespace Sys2Proof

/-- `v` is a word of width `w` (R1). -/
abbrev IsWord (w v : Nat) : Prop := v < 2 ^ w

/-- The largest word of width `w`, `2^W - 1` (R1). -/
def maxWord (w : Nat) : Nat := 2 ^ w - 1

end Sys2Proof
end

