-- ==== Sys2Proof/Config.lean ====
section
/-! DEFINITION. The two parameters of the core, the word width and the capacity, and when they are legal. -/

namespace Sys2Proof

/-- The parameters of the core; there are no others (R4). They are fixed when the machine is built and no
step writes them (R2, R11). -/
structure Config where
  /-- `W`, the word width in bits (R1, D1). -/
  w : Nat
  /-- `CAP`, the number of memory cells (R2, D2). -/
  cap : Nat
deriving DecidableEq, Repr

/-- R3: `W >= 25` and `1 <= CAP <= 2^W - 4`. -/
abbrev Config.Legal (c : Config) : Prop := 25 ≤ c.w ∧ 1 ≤ c.cap ∧ c.cap ≤ 2 ^ c.w - 4

/-- The configuration of `State.reset`. `W = 64` is the spec's reference value (R1, D1). The spec gives no
reference `CAP`; the largest legal one is a DESIGN CHOICE (unsafe for a claim about this configuration
alone), log entry 3. -/
def Config.reference : Config := { w := 64, cap := 2 ^ 64 - 4 }

end Sys2Proof
end

