-- ==== Sys2Proof/Machine/State.lean ====
section
/-! DEFINITION. The state of the core as plain data, its reset, and the reasons a step can stop. -/

namespace Sys2Proof.Machine

/-- The two faults of the core (R90). ADD and MUL raise them; the spec describes the entry (R93), so a
raise is a NEXT state that holds one of these in `State.fault`, and no step answers `Host.Outcome.fault`.
Log entry 6. -/
inductive Fault where
  /-- Code 1, `CapacityExceeded(a)`: raised by ADD and MUL at a destination `a >= CAP` (R91). Exact. -/
  | capacityExceeded (addr : Nat)
  /-- Code 2, `ArithmeticOverflow`: raised by ADD and MUL when the exact result exceeds `2^W - 1` (R92). Safe
  against saturating hardware (D6), exact otherwise. -/
  | arithmeticOverflow
deriving DecidableEq, Repr

/-- Why a step has no meaning. -/
inductive Refusal where
  /-- An instruction that has no meaning yet; no arm of `exec` answers it. Safe. -/
  | notModelled (mnemonic : String)
  /-- Raised by `step` when `State.cfg` is outside R3: "a configuration outside it is refused" (D3). Safe. -/
  | illegalConfiguration
deriving DecidableEq, Repr

/-- The status of the core (R15), derived from the state and never stored. -/
inductive Status where
  | running
  | halted
  | faulted
deriving DecidableEq, Repr

/-- The cells of memory as (address, word) pairs with rising addresses and no pair that holds 0; an
unlisted cell holds 0 (R11, R117: addresses beyond the program "default to zero"). Cells are words, not
bytes, because R25 forbids a byte-addressed memory. Log entry 5. -/
abbrev Memory := List (Nat × Nat)

/-- `m` is canonical and lists no address below `lo`. -/
def Memory.wfFrom : Nat → Memory → Bool
  | _, [] => true
  | lo, (a, v) :: m => decide (lo ≤ a) && decide (v ≠ 0) && Memory.wfFrom (a + 1) m

/-- The canonical form: addresses strictly rising, no cell listed as 0. -/
def Memory.wf (m : Memory) : Bool := Memory.wfFrom 0 m

/-- The complete architectural state (10_state.md; R10, R16: no other state), and the configuration the
machine was built with, which no step writes. -/
structure State where
  /-- `W` and `CAP`: parameters, not state (R1, R2); carried so that one `step` covers every legal
  machine. Log entry 2. -/
  cfg : Config
  /-- `M`, the memory cells (R11). -/
  mem : Memory
  /-- The program counter (R12). -/
  pc : Nat
  /-- The terminated flag (R13). -/
  terminated : Bool
  /-- The fault record (R14). -/
  fault : Option Fault
deriving DecidableEq, Repr

/-- The state right after reset in the configuration `cfg` with every cell 0 (R11, R12, R13, R14, R118). -/
def State.zeroed (cfg : Config) : State :=
  { cfg := cfg, mem := [], pc := 0, terminated := false, fault := none }

/-- The machine right after reset. Reset is a program load (R110); with nothing placed this is the load of
the one-field text "0" at the reference configuration. Log entries 3 and 4. -/
def State.reset : State := State.zeroed Config.reference

end Sys2Proof.Machine
end

