-- ==== Sys2Proof/Machine/Flags.lean ====
section
/-! DEFINITION. The core has no flags (R16, R65); what an exact result shows is whether it fits in a word. -/

namespace Sys2Proof.Machine

/-- The exact result `r` exceeds `2^W - 1` (R60, R63). -/
def overflows (cfg : Config) (r : Nat) : Bool := decide (maxWord cfg.w < r)

/-- The code of the fault record (R90, D18). -/
def faultCode : Option Fault → Nat
  | none => 0
  | some (.capacityExceeded _) => 1
  | some .arithmeticOverflow => 2

end Sys2Proof.Machine
end

