-- ==== Sys2Proof/Syntax.lean ====
section
/-! DEFINITION. The instructions: one constructor for each row of the opcode table. -/

namespace Sys2Proof

/-- A decoded instruction (30_encoding.md R41 to R43). -/
inductive Instr where
  /-- ADD, opcode word 1: three direct addresses (R41, R61). -/
  | add (src1 src2 dst : Nat)
  /-- MUL, opcode word 2: three direct addresses (R41, R62). -/
  | mul (src1 src2 dst : Nat)
  /-- HALT: any opcode word but 1 and 2 (R42, R47, R71). `op` is that opcode word, kept so that encoding and
  disassembly (R51) lose nothing; it is no operand, and the meaning does not use it. Log entry 8. -/
  | halt (op : Nat)
deriving DecidableEq, Repr

/-- The canonical HALT, opcode word 99 (R48). -/
def Instr.canonicalHalt : Instr := .halt 99

end Sys2Proof
end

