-- ==== Sys2Proof/WellFormed.lean ====
section
/-! DEFINITION. Which instruction terms stand for an encoding at word width `w`. -/

namespace Sys2Proof

/-- Every operand is a word of width `w` (R45: any word is a valid operand address), and a HALT's opcode
word is a word other than 1 and 2 (R42). -/
def Instr.wellFormed (w : Nat) : Instr → Bool
  | .add src1 src2 dst => decide (IsWord w src1) && decide (IsWord w src2) && decide (IsWord w dst)
  | .mul src1 src2 dst => decide (IsWord w src1) && decide (IsWord w src2) && decide (IsWord w dst)
  | .halt op => decide (IsWord w op) && decide (op ≠ 1) && decide (op ≠ 2)

end Sys2Proof
end

