-- ==== Sys2Proof/Decode.lean ====
section
/-! DEFINITION. Decoding and encoding, by whole words. -/

namespace Sys2Proof

/-- R43, `decode(a)`: the instruction whose first word `read` gives at `a`. Total, rejects nothing (R47);
compares the whole opcode word with 1 and 2 only (R44); a HALT reads no operand word (R42). The machine
gives it `MemRead` as `read` (R34). -/
def decodeAt (read : Nat → Nat) (a : Nat) : Instr :=
  if read a = 1 then .add (read (a + 1)) (read (a + 2)) (read (a + 3))
  else if read a = 2 then .mul (read (a + 1)) (read (a + 2)) (read (a + 3))
  else .halt (read a)

/-- Decoding a list of words; a word that is not there reads as 0, as beyond capacity (R43, R45). -/
def decode (ws : List Nat) : Instr := decodeAt (fun a => ws.getD a 0) 0

/-- R46: the length in words, from the first word alone. -/
def lengthOfOpcode (op : Nat) : Nat := if op = 1 ∨ op = 2 then 4 else 1

/-- The first `n` words of width `w` of a number that holds them with the first word lowest. The core has no
bytes (R25), so this order is the opcode table's numbering and no rule of the core. Log entry 9. -/
def splitWords (w : Nat) : Nat → Nat → List Nat
  | 0, _ => []
  | n + 1, v => v % 2 ^ w :: splitWords w n (v / 2 ^ w)

/-- What the decoder reads from an instruction given as one number, at the reference word width. -/
def decodeTableWord (nbits w : Nat) : Option Instr :=
  some (decode (splitWords Config.reference.w 4 (w % 2 ^ nbits)))

/-- The words of an instruction (R41, R42; `opcode_table.json`). -/
def encode : Instr → List Nat
  | .add src1 src2 dst => [1, src1, src2, dst]
  | .mul src1 src2 dst => [2, src1, src2, dst]
  | .halt op => [op]

/-- The length of an instruction in words: 4 in Format A (R41), 1 in Format H (R42). -/
def Instr.length : Instr → Nat
  | .add _ _ _ => 4
  | .mul _ _ _ => 4
  | .halt _ => 1

end Sys2Proof
end

