-- ==== Sys2Proof/Machine/Ops.lean ====
section
/-! DEFINITION. The named operations over memory and the control state. -/

namespace Sys2Proof.Machine

/-! ### One field each -/

/-- Replaces the memory. -/
def State.setMem (s : State) (m : Memory) : State := { s with mem := m }

/-- `pc <- v`. -/
def State.setPc (s : State) (v : Nat) : State := { s with pc := v }

/-- `terminated <- b`. -/
def State.setTerminated (s : State) (b : Bool) : State := { s with terminated := b }

/-- `fault <- f`. -/
def State.setFault (s : State) (f : Option Fault) : State := { s with fault := f }

/-! ### The cells -/

/-- The content of cell `a`; 0 where no pair is listed. -/
def Memory.read : Memory → Nat → Nat
  | [], _ => 0
  | (b, v) :: m, a => if b = a then v else Memory.read m a

/-- `m` without a pair for `a`: the cell holds 0. -/
def Memory.erase (m : Memory) (a : Nat) : Memory := m.filter (fun c => decide (c.1 ≠ a))

/-- Adds the pair `(a, v)` before the first pair with a larger address. -/
def Memory.insert : Memory → Nat → Nat → Memory
  | [], a, v => [(a, v)]
  | (b, u) :: m, a, v => if a < b then (a, v) :: (b, u) :: m else (b, u) :: Memory.insert m a v

/-- Cell `a` holds `v` and no other cell changes. -/
def Memory.write (m : Memory) (a : Nat) (v : Nat) : Memory :=
  if v = 0 then m.erase a else (m.erase a).insert a v

/-! ### The access primitives -/

/-- `MemRead(a, 1)` (R20): the cell for `a < CAP`, 0 beyond capacity. It changes nothing (R21). -/
def memRead (s : State) (a : Nat) : Nat := if a < s.cfg.cap then s.mem.read a else 0

/-- `MemWrite(a, 1, v)` (R22): the state with the cell written, or the fault the write raises. -/
def memWrite (a v : Nat) (s : State) : Except Fault State :=
  if a < s.cfg.cap then .ok (s.setMem (s.mem.write a v)) else .error (.capacityExceeded a)

/-! ### Status, faults and sequencing -/

/-- R15. -/
def State.status (s : State) : Status :=
  if s.fault ≠ none then .faulted else if s.terminated then .halted else .running

/-- Fault entry, `raise F` (R93): the fault record is written and nothing else changes. There is no vector, no
saved state (R95) and no return from a fault (R96), so no operation stands beside it. -/
def raise (f : Fault) (s : State) : State := s.setFault (some f)

/-- The advance of `pc` after a completed ADD or MUL (R72). -/
def advancePc (s : State) : State := s.setPc (s.pc + 4)

/-- The one action of HALT on the control state (R13, R71). -/
def terminate (s : State) : State := s.setTerminated true

/-- The instruction at `pc`, decoded afresh from the current memory (R34, R43, R70). -/
def fetch (s : State) : Instr := decodeAt (memRead s) s.pc

/-! ### Placing words from outside -/

/-- The words `ws` in the cells from `a` on; a word beyond capacity has no cell and is left out. -/
def placeWords : State → Nat → List Nat → State
  | s, _, [] => s
  | s, a, v :: ws =>
    placeWords (if a < s.cfg.cap then s.setMem (s.mem.write a v) else s) (a + 1) ws

/-- A Running core (R118: a load clears both stops). -/
def makeRunning (s : State) : State := (s.setTerminated false).setFault none

end Sys2Proof.Machine
end

