-- ==== Sys2Proof/Machine/Operands.lean ====
section
/-! DEFINITION. The one operand form: positional (direct) addressing. -/

namespace Sys2Proof.Machine

/-- The value of a source operand: the word read at the address the operand word names (R45), 0 beyond
capacity (R20). There is no other operand form (R29, R45). -/
def operandValue (s : State) (addr : Nat) : Nat := memRead s addr

end Sys2Proof.Machine
end

