-- ==== Sys2Proof/Machine/Arithmetic.lean ====
section
/-! DEFINITION. ADD and MUL. -/

namespace Sys2Proof.Machine

/-- What ADD and MUL do with their exact result `r`, in the order of R61 and R62: raise on overflow (R63), else
write (which raises beyond capacity, R22, R94), else advance `pc`. -/
def writeResult (r : Nat) (dst : Nat) (s : State) : State :=
  if overflows s.cfg r then raise .arithmeticOverflow s
  else
    match memWrite dst r s with
    | .ok t => advancePc t
    | .error f => raise f s

/-- ADD (R61): both source values are read before the write (R31). -/
def execAdd (src1 src2 dst : Nat) (s : State) : Host.Outcome State Fault Refusal :=
  .next (writeResult (operandValue s src1 + operandValue s src2) dst s)

/-- MUL (R62): both source values are read before the write (R31). -/
def execMul (src1 src2 dst : Nat) (s : State) : Host.Outcome State Fault Refusal :=
  .next (writeResult (operandValue s src1 * operandValue s src2) dst s)

end Sys2Proof.Machine
end

