-- ==== Sys2Proof/Machine/Control.lean ====
section
/-! DEFINITION. HALT. -/

namespace Sys2Proof.Machine

/-- HALT (R71): sets `terminated`; memory and `pc` are unchanged. Every opcode word but 1 and 2 has this one
effect (R47, R48), so `op` is not used. -/
def execHalt (_op : Nat) (s : State) : Host.Outcome State Fault Refusal := .next (terminate s)

end Sys2Proof.Machine
end

