-- ==== Sys2Proof/Machine/Dispatch.lean ====
section
/-! DEFINITION. One arm for each instruction. The status check is the step's (R70), not exec's. Log entry 7. -/

namespace Sys2Proof.Machine

def exec (i : Instr) (s : State) : Host.Outcome State Fault Refusal :=
  match i with
  | .add src1 src2 dst => Sys2Proof.Machine.execAdd src1 src2 dst s
  | .mul src1 src2 dst => Sys2Proof.Machine.execMul src1 src2 dst s
  | .halt op => Sys2Proof.Machine.execHalt op s

end Sys2Proof.Machine
end

