-- ==== Sys2Proof/Machine/Step.lean ====
section
/-! DEFINITION. One step of the core, and the placing of an instruction where the step fetches. -/

namespace Sys2Proof.Machine

/-- One step (R70): a stopped core does not step (R75); a Running one executes the instruction at `pc`. A
configuration outside R3 is refused (D3). -/
def step (s : State) : Host.Outcome State Fault Refusal :=
  if s.cfg.Legal then
    if s.status = .running then exec (fetch s) s else .next s
  else .refused .illegalConfiguration

/-- `s`, Running, with the instruction whose bits are `w` in the cells from `pc` on: it stands for a program
load from outside (R110). Log entries 4 and 9. -/
def State.withFetchWord (s : State) (nbits w : Nat) : State :=
  makeRunning (placeWords s s.pc (splitWords s.cfg.w 4 (w % 2 ^ nbits)))

end Sys2Proof.Machine
end

