-- ==== Sys2Proof/Machine/Load.lean ====
section
/-! DEFINITION. The program text and the program load, which is reset (R110). Text is a list of characters; a
byte of the ASCII text is the character of the same code (R111). Log entry 15. -/

namespace Sys2Proof.Machine

/-- The white space a load trims (R112, D13). -/
def isSpace (c : Char) : Bool :=
  c = ' ' || c = '\t' || c = '\n' || c = '\x0b' || c = '\x0c' || c = '\r'

/-- Removes leading and trailing white space (R112). -/
def trim (text : List Char) : List Char :=
  ((text.dropWhile isSpace).reverse.dropWhile isSpace).reverse

/-- Splits at every `sep`: one field more than there are separators. -/
def splitAtChar (sep : Char) : List Char → List (List Char)
  | [] => [[]]
  | c :: cs =>
    if c = sep then [] :: splitAtChar sep cs
    else
      match splitAtChar sep cs with
      | [] => [[c]]
      | f :: fs => (c :: f) :: fs

/-- The fields of a program text (R112, R113). -/
def programFields (text : List Char) : List (List Char) := splitAtChar ',' (trim text)

/-- The value a string of decimal digits spells. -/
def decimalValue (f : List Char) : Nat := f.foldl (fun n c => 10 * n + (c.toNat - 48)) 0

/-- R114: a non-empty string of ASCII digits whose value is at most `2^W - 1`. -/
def fieldValid (w : Nat) (f : List Char) : Bool :=
  decide (f ≠ []) && f.all Char.isDigit && decide (decimalValue f ≤ maxWord w)

/-- The words placed in cells `a, a + 1, ..`; a 0 needs no pair (R117). -/
def memoryOfWords : Nat → List Nat → Memory
  | _, [] => []
  | a, v :: vs => if v = 0 then memoryOfWords (a + 1) vs else (a, v) :: memoryOfWords (a + 1) vs

/-- The initial state for the words of a program (R117, R118). -/
def initialState (cfg : Config) (words : List Nat) : State :=
  (State.zeroed cfg).setMem (memoryOfWords 0 words)

/-- What a load answers. A failure produces no core state (R104, R110). -/
inductive LoadResult where
  /-- The initial state (R117, R118). -/
  | loaded (s : State)
  /-- Some field is invalid (R115). -/
  | parseError
  /-- Every field is valid and there are more than `CAP` (R116). -/
  | loadCapacityExceeded
  /-- The configuration is outside R3 (D3). -/
  | illegalConfiguration
deriving DecidableEq, Repr

/-- `Load(text)` (R110), on a core fixed at `cfg` (R129). Validity is checked on every field before the count
(R116, D20). No earlier state is an argument: nothing survives a load (R110). -/
def load (cfg : Config) (text : List Char) : LoadResult :=
  if ¬ cfg.Legal then .illegalConfiguration
  else if (programFields text).all (fieldValid cfg.w) then
    if (programFields text).length ≤ cfg.cap then
      .loaded (initialState cfg ((programFields text).map decimalValue))
    else .loadCapacityExceeded
  else .parseError

/-- A word in decimal digits. -/
def decimal (v : Nat) : List Char := Nat.toDigits 10 v

/-- Words as program text: decimal, comma-separated (R111). -/
def programText : List Nat → List Char
  | [] => []
  | [v] => decimal v
  | v :: vs => decimal v ++ ',' :: programText vs

end Sys2Proof.Machine
end

