-- ==== Sys2Proof/Machine/Assembler.lean ====
section
/-! DEFINITION. The spec's assembly syntax and disassembly (R50, R51); no effect on the machine (D12). -/

namespace Sys2Proof.Machine

/-- A statement of the assembly language (R50). There are no pseudo-instructions (R51). -/
inductive AsmStmt where
  | add (s1 s2 d : Nat)
  | mul (s1 s2 d : Nat)
  | halt
  | word (v : Nat)
deriving DecidableEq, Repr

/-- The words a statement emits (R50). -/
def AsmStmt.words : AsmStmt → List Nat
  | .add s1 s2 d => [1, s1, s2, d]
  | .mul s1 s2 d => [2, s1, s2, d]
  | .halt => [99]
  | .word v => [v]

/-- The operands of a statement: decimal words separated by commas (R50). DESIGN CHOICE, log entry 14: white space
may stand around each, and a word may have leading zeros, as R114 allows in a program text; R50 says only
"decimal words". -/
def asmOperands (w : Nat) (text : List Char) : Option (List Nat) :=
  if ((splitAtChar ',' text).map trim).all (fieldValid w) then
    some ((splitAtChar ',' text).map (fun f => decimalValue (trim f)))
  else none

/-- A statement from its name and the text after it (R50). Names are read letter for letter, and anything after
HALT but white space is no statement: DESIGN CHOICE, log entry 14. -/
def asmStatement (w : Nat) (name rest : List Char) : Option AsmStmt :=
  if name = ['H', 'A', 'L', 'T'] then
    if rest = [] then some .halt else none
  else
    match asmOperands w rest with
    | some [s1, s2, d] =>
      if name = ['A', 'D', 'D'] then some (.add s1 s2 d)
      else if name = ['M', 'U', 'L'] then some (.mul s1 s2 d)
      else none
    | some [v] => if name = ['.', 'w', 'o', 'r', 'd'] then some (.word v) else none
    | _ => none

/-- The statements of one line: none or one (R50: one statement a line, `;` starts a comment). The white space
allowed and the empty line are the model's choice, log entry 14. `none` for a line that is no statement. -/
def asmLine (w : Nat) (line : List Char) : Option (List AsmStmt) :=
  let code := trim (line.takeWhile (fun c => decide (c ≠ ';')))
  if code = [] then some []
  else
    (asmStatement w (code.takeWhile (fun c => !isSpace c))
      (trim (code.dropWhile (fun c => !isSpace c)))).map (fun st => [st])

/-- The statements of several lines. -/
def asmLines (w : Nat) : List (List Char) → Option (List AsmStmt)
  | [] => some []
  | l :: ls =>
    match asmLine w l, asmLines w ls with
    | some sts, some more => some (sts ++ more)
    | _, _ => none

/-- The words of an assembly text, from address 0 (R50). DESIGN CHOICE, log entry 14: a line ends at a line feed
alone; carriage return, vertical tab and form feed are white space inside a line. R50 says only "one statement
per line". -/
def assemble (w : Nat) (text : List Char) : Option (List Nat) :=
  (asmLines w (splitAtChar '\n' text)).map (fun sts => sts.flatMap AsmStmt.words)

/-- The operands as a disassembler prints them, in R50's spelling. The one space before each and the digits without
leading zeros are a DESIGN CHOICE, log entry 14. -/
def disassembleOperands (src1 src2 dst : Nat) : List Char :=
  ' ' :: decimal src1 ++ ',' :: ' ' :: decimal src2 ++ ',' :: ' ' :: decimal dst

/-- R51: a HALT other than 99 shows its opcode word in a comment. -/
def disassemble : Instr → List Char
  | .add src1 src2 dst => 'A' :: 'D' :: 'D' :: disassembleOperands src1 src2 dst
  | .mul src1 src2 dst => 'M' :: 'U' :: 'L' :: disassembleOperands src1 src2 dst
  | .halt op =>
    if op = 99 then ['H', 'A', 'L', 'T']
    else ['H', 'A', 'L', 'T', ' ', ';', ' ', 'o', 'p', '='] ++ decimal op

end Sys2Proof.Machine
end

