-- ==== Sys2Proof/Machine/Run.lean ====
section
/-! DEFINITION. The run loop and the instruction count. -/

namespace Sys2Proof.Machine

/-- The state after one requested step; where the step has no meaning, the state as it was. -/
def advance (s : State) : State :=
  match step s with
  | .next t => t
  | .fault _ => s
  | .refused _ => s

/-- The run loop (R79), at most `n` steps: steps while the status is Running. -/
def runLoop : Nat → State → State
  | 0, s => s
  | n + 1, s => if s.status = .running then runLoop n (advance s) else s

/-- How many steps a run from `s` can take at most: one for each `pc, pc + 4, ..` below `CAP`, and one more
(the reasoning of R77; from a load it is `ceil(CAP / 4) + 1`). Log entry 10. -/
def stepBound (s : State) : Nat := (s.cfg.cap - s.pc + 3) / 4 + 1

/-- `run(s)` (R79). The bound never cuts a run short (R77), which is a statement of its own. -/
def run (s : State) : State := runLoop (stepBound s) s

/-- Whether the step from `s` counts (R80): the core was Running and the step did not raise a fault. -/
def stepCounts (s : State) : Bool :=
  decide (s.status = .running) &&
    match step s with
    | .next t => decide (t.fault = none)
    | .fault _ => false
    | .refused _ => false

/-- The instruction count of the first `n` steps from `s` (R80, D11). -/
def instructionCount : Nat → State → Nat
  | 0, _ => 0
  | n + 1, s =>
    if s.status = .running then (if stepCounts s then 1 else 0) + instructionCount n (advance s) else 0

end Sys2Proof.Machine
end

