-- ==== Sys2Proof/Machine/HostInterface.lean ====
section
/-! DEFINITION. The host's transactions (R119 to R126), each wholly between two steps. -/

namespace Sys2Proof.Machine

/-- A loaded core with the host interface's own state, which is not architectural (R119, R80). Log entry 11. -/
structure Session where
  /-- The core. -/
  core : State
  /-- The interface flag `started` (R119). -/
  started : Bool
  /-- The instruction count since the load (R80, R122). -/
  icount : Nat
deriving DecidableEq, Repr

/-- The session a successful `Load` begins: not started, nothing counted (R119). -/
def openSession (s : State) : Session := { core := s, started := false, icount := 0 }

/-- Why a `Poke` is refused; the session is then unchanged (R120). -/
inductive PokeRefusal where
  /-- After the first step, or on a Halted or Faulted core (R120). -/
  | started
  /-- `CapacityExceeded(a)`: `a >= CAP` (R120). -/
  | capacityExceeded (addr : Nat)
  /-- The value is no word of the core; R120 pokes words only. The model's own, safe: log entry 12. -/
  | notAWord (v : Nat)
deriving DecidableEq, Repr

/-- What a `Poke` answers. -/
inductive PokeResult where
  | poked (x : Session)
  | refused (r : PokeRefusal)
deriving DecidableEq, Repr

/-- `Poke(a, v)` (R120). -/
def poke (a v : Nat) (x : Session) : PokeResult :=
  if x.started || decide (x.core.status ≠ .running) then .refused .started
  else
    match memWrite a v x.core with
    | .error _ => .refused (.capacityExceeded a)
    | .ok t => if IsWord x.core.cfg.w v then .poked { x with core := t } else .refused (.notAWord v)

/-- `Peek(a)` (R121): any status, no change. -/
def peek (a : Nat) (x : Session) : Nat := memRead x.core a

/-- `Step` (R122). -/
def hostStep (x : Session) : Session :=
  { core := advance x.core, started := true, icount := x.icount + if stepCounts x.core then 1 else 0 }

/-- `Run` (R122). -/
def hostRun (x : Session) : Session :=
  { core := run x.core, started := true,
    icount := x.icount + instructionCount (stepBound x.core) x.core }

/-- A `Run` under a step ceiling of the host's (R124): at most `n` steps, then the core is left as it is. -/
def hostRunCeiling (n : Nat) (x : Session) : Session :=
  { core := runLoop n x.core, started := x.started || decide (0 < n),
    icount := x.icount + instructionCount n x.core }

/-- What `Status` returns (R122). -/
structure StatusReport where
  status : Status
  pc : Nat
  terminated : Bool
  fault : Option Fault
  /-- The code of the fault record (R90). -/
  code : Nat
  icount : Nat
deriving DecidableEq, Repr

/-- `Status` (R122). -/
def statusReport (x : Session) : StatusReport :=
  { status := x.core.status, pc := x.core.pc, terminated := x.core.terminated, fault := x.core.fault,
    code := faultCode x.core.fault, icount := x.icount }

/-- `Clone` (R123): the session and an independent copy of it, the `started` flag with it. -/
def clone (x : Session) : Session × Session := (x, x)

/-- The result cell (R125): the word at address 0 once Halted; a faulted run has no result. -/
def resultCell (x : Session) : Option Nat :=
  if x.core.status = .halted then some (peek 0 x) else none

/-- What a host procedure with two input cells answers. That it can be refused is a DESIGN CHOICE, log entry 18. -/
inductive InputRun where
  | ran (x : Session)
  | refused (r : PokeRefusal)
deriving DecidableEq, Repr

/-- The gravity-assist variant (R126): noun to cell 1, verb to cell 2, then `Run`. R126 does not say what happens
when a Poke is refused. DESIGN CHOICE, log entry 18: nothing runs and the answer is the refusal alone, so a first
Poke that was taken is dropped with it. -/
def runWithInputs (noun verb : Nat) (x : Session) : InputRun :=
  match poke 1 noun x with
  | .refused r => .refused r
  | .poked y =>
    match poke 2 verb y with
    | .refused r => .refused r
    | .poked z => .ran (hostRun z)

/-- The basic variant (R126): cells 1 and 2 fixed to 12 and 2. A refused Poke is answered as in `runWithInputs`. -/
def runBasicVariant (x : Session) : InputRun := runWithInputs 12 2 x

end Sys2Proof.Machine
end

