-- ==== Sys2Proof/Machine/Search.lean ====
section
/-! DEFINITION. The host's Parameter Search, sequential (R127) and parallel (R128); outside the block. -/

namespace Sys2Proof.Machine

/-- A pair of noun and verb. -/
abbrev Inputs := Nat × Nat

/-- How one trial ends. -/
inductive Trial where
  /-- Cell 0 holds the target. -/
  | hit
  /-- Cell 0 holds another word. -/
  | miss
  /-- The run faulted; the search aborts (R127, D21). -/
  | faulted (f : Fault)
  /-- The template takes no pokes (it is started, or `CAP < 3`). -/
  | refused (r : PokeRefusal)
deriving DecidableEq, Repr

/-- One trial on a clone of the template (R127). -/
def trial (template : Session) (target : Nat) (p : Inputs) : Trial :=
  match runWithInputs p.1 p.2 (clone template).2 with
  | .refused r => .refused r
  | .ran x =>
    match x.core.fault with
    | some f => .faulted f
    | none => if peek 0 x = target then .hit else .miss

/-- What a search answers (R127). -/
inductive SearchResult where
  | found (noun verb : Nat)
  | noSolution
  | aborted (f : Fault)
  | refused (r : PokeRefusal)
deriving DecidableEq, Repr

/-- What a trial decides about the search, if anything. -/
def trialResult (p : Inputs) : Trial → Option SearchResult
  | .hit => some (.found p.1 p.2)
  | .miss => none
  | .faulted f => some (.aborted f)
  | .refused r => some (.refused r)

/-- The trials one after the other, until one decides. -/
def searchOver (template : Session) (target : Nat) : List Inputs → SearchResult
  | [] => .noSolution
  | p :: ps =>
    match trialResult p (trial template target p) with
    | some r => r
    | none => searchOver template target ps

/-- `[0, 100] x [0, 100]`, the noun outermost (R127). -/
def searchDomain : List Inputs :=
  (List.range 101).flatMap (fun noun => (List.range 101).map (fun verb => (noun, verb)))

/-- `search(template, target)` (R127). -/
def search (template : Session) (target : Nat) : SearchResult :=
  searchOver template target searchDomain

/-- The sequential order of R127: the noun first, then the verb. -/
def earlier (p q : Inputs) : Bool := decide (p.1 < q.1) || (decide (p.1 = q.1) && decide (p.2 < q.2))

/-- The earlier of the best pair so far and `p`. -/
def keepEarlier (best : Option Inputs) (p : Inputs) : Option Inputs :=
  match best with
  | none => some p
  | some q => if earlier p q then some p else some q

/-- R128: the trials in the order `finished` in which they end, all collected; the earliest that decides gives
the result. A trial that faults decides as it does in sequence. Log entry 13. -/
def searchParallel (template : Session) (target : Nat) (finished : List Inputs) : SearchResult :=
  match (finished.filter (fun p => (trialResult p (trial template target p)).isSome)).foldl
      keepEarlier none with
  | none => .noSolution
  | some p => (trialResult p (trial template target p)).getD .noSolution

/-- The answer surfaced for a pair, `100 * noun + verb` (R127). -/
def surfacedAnswer (p : Inputs) : Nat := 100 * p.1 + p.2

end Sys2Proof.Machine
end

