-- ==== Sys2Proof/Safety.lean ====
section
/-! DEFINITION. What claims call a well-formed state, a reachable program counter and a safe run. -/

namespace Sys2Proof.Machine

/-- The recorded address is a word at or beyond capacity (R14, R91). -/
def faultWellFormed (cfg : Config) : Option Fault → Bool
  | none => true
  | some (.capacityExceeded a) => decide (cfg.cap ≤ a) && decide (IsWord cfg.w a)
  | some .arithmeticOverflow => true

/-- Every listed cell exists and holds a word (R11). -/
def cellsInRange (cfg : Config) (m : Memory) : Bool :=
  m.all (fun c => decide (c.1 < cfg.cap) && decide (IsWord cfg.w c.2))

/-- A state the spec gives the machine: a legal configuration (R3), a canonical memory of words in range (R11),
a `pc` that is a word (R12), a well-formed fault record (R14), and not both stops at once (R15). -/
abbrev State.Inv (s : State) : Prop :=
  s.cfg.Legal ∧ s.mem.wf = true ∧ cellsInRange s.cfg s.mem = true ∧ IsWord s.cfg.w s.pc ∧
    faultWellFormed s.cfg s.fault = true ∧ ¬ (s.terminated = true ∧ s.fault ≠ none)

/-- The program counters a run from a load can reach (R76). -/
abbrev State.PcReachable (s : State) : Prop := s.pc % 4 = 0 ∧ s.pc ≤ s.cfg.cap + 3

/-- The opcode word the next step reads (R43). -/
abbrev opcodeWord (s : State) : Nat := memRead s s.pc

/-- The next step finds an ADD or a MUL (R43). -/
abbrev AtArithmetic (s : State) : Prop := opcodeWord s = 1 ∨ opcodeWord s = 2

/-- The destination address of the ADD or MUL at `pc` (R41). -/
abbrev dstAddress (s : State) : Nat := memRead s (s.pc + 3)

/-- The exact result of the ADD or MUL at `pc` (R60 to R62). -/
def exactResult (s : State) : Nat :=
  if opcodeWord s = 1 then memRead s (memRead s (s.pc + 1)) + memRead s (memRead s (s.pc + 2))
  else memRead s (memRead s (s.pc + 1)) * memRead s (memRead s (s.pc + 2))

/-- The step from `s` completes an ADD or a MUL: it is Running there, the result fits in a word and the
destination exists (R61, R62). -/
def completes (s : State) : Bool :=
  decide (s.status = .running) && decide (AtArithmetic s) && !overflows s.cfg (exactResult s) &&
    decide (dstAddress s < s.cfg.cap)

/-- A run from `s` is safe when it ends Halted, not Faulted (R97: "a halted core has completed normally"). -/
abbrev SafeRun (s : State) : Prop := (run s).status = .halted

end Sys2Proof.Machine
end

