-- ==== Sys2Proof/Certificates/Slice0/Obligations.lean ====
section
/-! DEFINITION. The statements about the model, from the spec's numbered rules. -/

open Sys2Proof Sys2Proof.Machine

/-! ### Encoding -/

/-- Words written out from `opcode_table.json` and 95_test_vectors.md (S1, V-D1 to V-D11) decode to the
instruction they stand for. -/
def Obligations.TableWordsDecode : Prop :=
  decode [1, 9, 10, 3] = .add 9 10 3 ∧ decode [2, 3, 11, 0] = .mul 3 11 0 ∧
    decode [99, 1, 2, 3] = .halt 99 ∧ decode [0, 1, 2, 3] = .halt 0 ∧
    decode [101, 1, 2, 3] = .halt 101 ∧ decode [1001, 1, 2, 3] = .halt 1001

/-- R43, R44: decoding at any address of any state compares the whole opcode word with 1 and 2 and nothing
else, reads the operand words after it, and is a HALT at every address beyond capacity. -/
def Obligations.DecodeComparesWholeOpcodeWord : Prop :=
  ∀ (s : State) (a : Nat),
    (memRead s a = 1 →
      decodeAt (memRead s) a = .add (memRead s (a + 1)) (memRead s (a + 2)) (memRead s (a + 3))) ∧
    (memRead s a = 2 →
      decodeAt (memRead s) a = .mul (memRead s (a + 1)) (memRead s (a + 2)) (memRead s (a + 3))) ∧
    (memRead s a ≠ 1 → memRead s a ≠ 2 → decodeAt (memRead s) a = .halt (memRead s a)) ∧
    (s.cfg.cap ≤ a → decodeAt (memRead s) a = .halt 0)

/-- Every well-formed instruction, its words placed anywhere inside capacity over any earlier content, decodes
to itself, whatever stands around it. -/
def Obligations.PlacedEncodingDecodesToInstruction : Prop :=
  ∀ (s : State) (i : Instr) (a : Nat), s.cfg.Legal → i.wellFormed s.cfg.w = true →
    a + i.length ≤ s.cfg.cap →
    decodeAt (memRead (placeWords s a (encode i))) a = i ∧ ∀ rest, decode (encode i ++ rest) = i

/-- What decoding reads from the memory of a well-formed state is well formed, and encodes to exactly the words
that stand there. -/
def Obligations.DecodedInstructionEncodesToItsWords : Prop :=
  ∀ (s : State) (a : Nat), s.Inv →
    (decodeAt (memRead s) a).wellFormed s.cfg.w = true ∧
      encode (decodeAt (memRead s) a) =
        (List.range (lengthOfOpcode (memRead s a))).map (fun k => memRead s (a + k))

/-- The number that `decodeTableWord` decodes is what the first step after reset runs, once it is placed where
the step fetches (the model's serialisation, log entry 9). -/
def Obligations.TableWordRunsAfterReset : Prop :=
  ∀ (nbits w : Nat) (i : Instr), decodeTableWord nbits w = some i →
    step (State.reset.withFetchWord nbits w) = exec i (State.reset.withFetchWord nbits w)

/-- An ADD, a MUL or the canonical HALT disassembles to a line that reads back as one statement, which emits the
instruction's words; the line of a HALT of any other opcode word reads back as the canonical HALT and emits 99
(R50, R51). How white space is read is the model's choice, log entry 14. -/
def Obligations.DisassemblyReadsBack : Prop :=
  ∀ (w : Nat) (i : Instr), 25 ≤ w → i.wellFormed w = true →
    ∃ st, asmLine w (disassemble i) = some [st] ∧
      st.words = match i with
        | .add src1 src2 dst => encode (.add src1 src2 dst)
        | .mul src1 src2 dst => encode (.mul src1 src2 dst)
        | .halt _ => encode Instr.canonicalHalt

/-! ### Memory -/

/-- R20, first sentence's two cases: the cell below capacity, 0 at and beyond it. -/
def Obligations.ReadBeyondCapacityIsZero : Prop :=
  ∀ (s : State) (a : Nat),
    (a < s.cfg.cap → memRead s a = s.mem.read a) ∧ (s.cfg.cap ≤ a → memRead s a = 0)

/-- R22: below capacity the cell, and only the cell, takes the word; at or beyond capacity the write raises
CapacityExceeded and there is no new memory. -/
def Obligations.WriteStoresOrRaises : Prop :=
  ∀ (s : State) (a v : Nat),
    (a < s.cfg.cap → ∃ t, memWrite a v s = .ok t ∧ memRead t a = v ∧
      (∀ b, b ≠ a → memRead t b = memRead s b) ∧
      t.cfg = s.cfg ∧ t.pc = s.pc ∧ t.terminated = s.terminated ∧ t.fault = s.fault) ∧
    (s.cfg.cap ≤ a → memWrite a v s = .error (.capacityExceeded a))

/-- R30: after any sequence of writes that all land, a read gives the word of the most recent write to its
address, else the content before the sequence; 0 beyond capacity. -/
def Obligations.ReadReturnsMostRecentWrite : Prop :=
  ∀ (writes : List (Nat × Nat)) (s t : State) (a : Nat),
    writes.foldlM (fun u p => memWrite p.1 p.2 u) s = Except.ok t →
    memRead t a =
      if a < s.cfg.cap then
        ((writes.reverse.find? (fun p => decide (p.1 = a))).map Prod.snd).getD (memRead s a)
      else 0

/-- Memories in canonical form that read alike are the same data. The list form is the model's own (log entry 5);
no rule of the spec gives it. -/
def Obligations.MemoriesThatReadAlikeAreEqual : Prop :=
  ∀ m n : Memory, m.wf = true → n.wf = true → (∀ a, m.read a = n.read a) → m = n

/-! ### ADD, MUL and HALT -/

/-- R61, the whole of ADD as one step: exact sum, overflow before the write, capacity at the write, `pc + 4`. -/
def Obligations.AddExecutes : Prop :=
  ∀ s : State, s.cfg.Legal → s.status = .running → memRead s s.pc = 1 →
    ∀ a b d r : Nat, a = memRead s (s.pc + 1) → b = memRead s (s.pc + 2) → d = memRead s (s.pc + 3) →
      r = memRead s a + memRead s b →
      (2 ^ s.cfg.w - 1 < r → step s = .next { s with fault := some .arithmeticOverflow }) ∧
      (r ≤ 2 ^ s.cfg.w - 1 → s.cfg.cap ≤ d →
        step s = .next { s with fault := some (.capacityExceeded d) }) ∧
      (r ≤ 2 ^ s.cfg.w - 1 → d < s.cfg.cap → ∃ t, step s = .next t ∧
        memRead t d = r ∧ (∀ x, x ≠ d → memRead t x = memRead s x) ∧ t.pc = s.pc + 4 ∧
        t.cfg = s.cfg ∧ t.terminated = s.terminated ∧ t.fault = s.fault)

/-- R62, the whole of MUL as one step. -/
def Obligations.MulExecutes : Prop :=
  ∀ s : State, s.cfg.Legal → s.status = .running → memRead s s.pc = 2 →
    ∀ a b d r : Nat, a = memRead s (s.pc + 1) → b = memRead s (s.pc + 2) → d = memRead s (s.pc + 3) →
      r = memRead s a * memRead s b →
      (2 ^ s.cfg.w - 1 < r → step s = .next { s with fault := some .arithmeticOverflow }) ∧
      (r ≤ 2 ^ s.cfg.w - 1 → s.cfg.cap ≤ d →
        step s = .next { s with fault := some (.capacityExceeded d) }) ∧
      (r ≤ 2 ^ s.cfg.w - 1 → d < s.cfg.cap → ∃ t, step s = .next t ∧
        memRead t d = r ∧ (∀ x, x ≠ d → memRead t x = memRead s x) ∧ t.pc = s.pc + 4 ∧
        t.cfg = s.cfg ∧ t.terminated = s.terminated ∧ t.fault = s.fault)

/-- R71: any opcode word but 1 and 2, and every `pc` beyond capacity, sets `terminated` and changes nothing
else. -/
def Obligations.HaltExecutes : Prop :=
  ∀ s : State, s.cfg.Legal → s.status = .running →
    ((memRead s s.pc ≠ 1 ∧ memRead s s.pc ≠ 2) ∨ s.cfg.cap ≤ s.pc) →
    step s = .next { s with terminated := true }

/-- ADD completes, for every operand whose sum fits and whose destination exists: exact sum, `pc + 4`. -/
def Obligations.AddCompletes : Prop :=
  ∀ (s : State) (src1 src2 dst : Nat),
    memRead s src1 + memRead s src2 ≤ 2 ^ s.cfg.w - 1 → dst < s.cfg.cap →
    ∃ t, exec (.add src1 src2 dst) s = .next t ∧ memRead t dst = memRead s src1 + memRead s src2 ∧
      (∀ x, x ≠ dst → memRead t x = memRead s x) ∧ t.pc = s.pc + 4 ∧
      t.cfg = s.cfg ∧ t.terminated = s.terminated ∧ t.fault = s.fault

/-- MUL completes, for every operand whose product fits and whose destination exists: exact product, `pc + 4`. -/
def Obligations.MulCompletes : Prop :=
  ∀ (s : State) (src1 src2 dst : Nat),
    memRead s src1 * memRead s src2 ≤ 2 ^ s.cfg.w - 1 → dst < s.cfg.cap →
    ∃ t, exec (.mul src1 src2 dst) s = .next t ∧ memRead t dst = memRead s src1 * memRead s src2 ∧
      (∀ x, x ≠ dst → memRead t x = memRead s x) ∧ t.pc = s.pc + 4 ∧
      t.cfg = s.cfg ∧ t.terminated = s.terminated ∧ t.fault = s.fault

/-- HALT completes in every state and for every opcode word: `terminated` is set and nothing else changes. -/
def Obligations.HaltCompletes : Prop :=
  ∀ (op : Nat) (s : State), exec (.halt op) s = .next { s with terminated := true }

/-- R63: an exact result above `2^W - 1` writes nothing, whatever the destination; it never wraps. -/
def Obligations.OverflowStopsWithoutWriting : Prop :=
  ∀ (s : State) (src1 src2 dst : Nat),
    (2 ^ s.cfg.w - 1 < memRead s src1 + memRead s src2 →
      exec (.add src1 src2 dst) s = .next { s with fault := some .arithmeticOverflow }) ∧
    (2 ^ s.cfg.w - 1 < memRead s src1 * memRead s src2 →
      exec (.mul src1 src2 dst) s = .next { s with fault := some .arithmeticOverflow })

/-- From R91: executing an ADD or MUL whose result fits and whose destination is at or beyond capacity records
CapacityExceeded with that address, and no instruction records it with any other address. It is about `exec`: what
a read beyond capacity gives is ReadBeyondCapacityIsZero, and a `pc` there is HaltExecutes. -/
def Obligations.CapacityExceededOnlyAtWrite : Prop :=
  ∀ (s : State) (src1 src2 dst : Nat),
    (memRead s src1 + memRead s src2 ≤ 2 ^ s.cfg.w - 1 → s.cfg.cap ≤ dst →
      exec (.add src1 src2 dst) s = .next { s with fault := some (.capacityExceeded dst) }) ∧
    (memRead s src1 * memRead s src2 ≤ 2 ^ s.cfg.w - 1 → s.cfg.cap ≤ dst →
      exec (.mul src1 src2 dst) s = .next { s with fault := some (.capacityExceeded dst) }) ∧
    (∀ (i : Instr) (t : State) (a : Nat), exec i s = .next t → s.fault = none →
      t.fault = some (.capacityExceeded a) →
      s.cfg.cap ≤ a ∧ ∃ x y, i = .add x y a ∨ i = .mul x y a)

/-- The frame of ADD and MUL on every path: only the destination cell, `pc` and the fault record can change, and
a raise leaves every cell and `pc` as they were. -/
def Obligations.ArithmeticFrame : Prop :=
  ∀ (i : Instr) (src1 src2 dst : Nat) (s t : State),
    (i = .add src1 src2 dst ∨ i = .mul src1 src2 dst) → exec i s = .next t →
    t.cfg = s.cfg ∧ t.terminated = s.terminated ∧
    (∀ x, x ≠ dst → memRead t x = memRead s x) ∧
    ((t.fault = s.fault ∧ t.pc = s.pc + 4) ∨
      (t.pc = s.pc ∧ (∀ x, memRead t x = memRead s x) ∧
        (t.fault = some .arithmeticOverflow ∨ t.fault = some (.capacityExceeded dst))))

/-- R48: 99 and every other HALT opcode word have identical effect. -/
def Obligations.EveryHaltWordActsAlike : Prop :=
  ∀ (s : State) (op : Nat), op ≠ 1 → op ≠ 2 → s.cfg.Legal → s.pc < s.cfg.cap → s.status = .running →
    step (s.setMem (s.mem.write s.pc op)) =
      .next { s with mem := s.mem.write s.pc op, terminated := true }

/-! ### The step -/

/-- A step is `exec` of the instruction whose words stand at `pc`; the step adds only the status check. -/
def Obligations.StepRunsDecodedInstruction : Prop :=
  ∀ (s : State) (i : Instr), s.cfg.Legal → s.status = .running → i.wellFormed s.cfg.w = true →
    (∀ k, k < i.length → memRead s (s.pc + k) = (encode i).getD k 0) → step s = exec i s

/-- R70: in a legal configuration every state has a successor. Outside R3 the step refuses (D3). -/
def Obligations.StepIsTotal : Prop :=
  ∀ s : State, (s.cfg.Legal → ∃ t, step s = .next t ∧ t.cfg = s.cfg) ∧
    (¬ s.cfg.Legal → step s = .refused .illegalConfiguration)

/-- R75: a Halted or Faulted core does not step, however often it is asked to. -/
def Obligations.StoppedCoreKeepsItsState : Prop :=
  ∀ s : State, s.cfg.Legal → s.status ≠ .running → step s = .next s ∧ ∀ n, advance^[n] s = s

/-- R72: `pc + 4` after a completed ADD or MUL, without wrapping; unchanged after a HALT, after a fault and on a
stopped core. -/
def Obligations.PcAdvancesByFourOrStays : Prop :=
  ∀ s t : State, step s = .next t →
    (completes s = true → t.pc = s.pc + 4 ∧ s.pc + 4 ≤ 2 ^ s.cfg.w - 1) ∧ (completes s = false → t.pc = s.pc)

/-- R74: Running stays Running exactly at a completed ADD or MUL, goes to Halted exactly at a HALT and to
Faulted exactly at a raise; nothing leaves Halted or Faulted. -/
def Obligations.StatusTransitions : Prop :=
  ∀ s t : State, step s = .next t →
    (t.status = .running ↔ completes s = true) ∧
    (t.status = .halted ↔ s.status = .halted ∨ (s.status = .running ∧ ¬ AtArithmetic s)) ∧
    (t.status = .faulted ↔
      s.status = .faulted ∨ (s.status = .running ∧ AtArithmetic s ∧ completes s = false))

/-- Every cell after a step: the exact result in the destination of a completed ADD or MUL, the old word in
every other case, all reads being of the state before (R30, R31). -/
def Obligations.CellsChangeOnlyByCompletedWrites : Prop :=
  ∀ s t : State, step s = .next t → ∀ x,
    memRead t x = if completes s = true ∧ x = dstAddress s then exactResult s else memRead s x

/-- R13: only a HALT sets `terminated`, nothing clears it, and a terminated core's memory is immutable. -/
def Obligations.TerminatedIsSetOnlyByHalt : Prop :=
  (∀ s t : State, step s = .next t →
    (s.terminated = false → (t.terminated = true ↔ s.status = .running ∧ ¬ AtArithmetic s)) ∧
    (s.terminated = true → t.terminated = true ∧ t.mem = s.mem)) ∧
  State.reset.terminated = false

/-- R90: the codes, and every raise: which fault, by which instruction, when, with what recorded. -/
def Obligations.FaultCausesAndCodes : Prop :=
  (faultCode none = 0 ∧ (∀ a, faultCode (some (.capacityExceeded a)) = 1) ∧
    faultCode (some .arithmeticOverflow) = 2) ∧
  ∀ (s t : State) (f : Fault), step s = .next t → s.fault = none →
    (t.fault = some f ↔ s.status = .running ∧ AtArithmetic s ∧
      ((f = .arithmeticOverflow ∧ 2 ^ s.cfg.w - 1 < exactResult s) ∨
        (f = .capacityExceeded (dstAddress s) ∧ s.cfg.cap ≤ dstAddress s ∧
          exactResult s ≤ 2 ^ s.cfg.w - 1))) ∧
    (t.fault = some f → t.pc = s.pc)

/-- R93: a raise writes the fault record and nothing else, and the core is then Faulted. -/
def Obligations.FaultEntryIsPrecise : Prop :=
  ∀ s t : State, step s = .next t → s.fault = none → t.fault ≠ none →
    t = { s with fault := t.fault } ∧ t.terminated = false ∧ t.status = .faulted

/-- R94: one fault a step; an ADD or MUL that overflows toward a missing destination reports the overflow. -/
def Obligations.OverflowWinsOverCapacity : Prop :=
  ∀ s : State, s.cfg.Legal → s.status = .running → AtArithmetic s →
    2 ^ s.cfg.w - 1 < exactResult s → s.cfg.cap ≤ dstAddress s →
    step s = .next { s with fault := some .arithmeticOverflow }

/-- R34: what the step after a completed ADD or MUL fetches is decoded from the memory that holds its write. -/
def Obligations.NextFetchSeesTheWrite : Prop :=
  ∀ s t : State, step s = .next t → completes s = true →
    fetch t = decodeAt (fun x => if x = dstAddress s then exactResult s else memRead s x) (s.pc + 4)

/-- A step depends on nothing but the words it reads: two states that agree on `pc`, the stops, the opcode word
and, for an ADD or MUL only, the operand words and the two source values, take steps that agree again, and no
step makes a difference in a cell where there was none (R31, R42). -/
def Obligations.StepDependsOnlyOnWordsItReads : Prop :=
  ∀ s s' t t' : State, step s = .next t → step s' = .next t' →
    s.cfg = s'.cfg → s.pc = s'.pc → s.terminated = s'.terminated → s.fault = s'.fault →
    memRead s s.pc = memRead s' s.pc →
    (AtArithmetic s → ∀ k, 1 ≤ k → k ≤ 3 → memRead s (s.pc + k) = memRead s' (s.pc + k)) →
    (AtArithmetic s → ∀ k, 1 ≤ k → k ≤ 2 →
      memRead s (memRead s (s.pc + k)) = memRead s' (memRead s (s.pc + k))) →
    t.pc = t'.pc ∧ t.terminated = t'.terminated ∧ t.fault = t'.fault ∧
      (completes s = true → memRead t (dstAddress s) = memRead t' (dstAddress s)) ∧
      ∀ x, memRead s x = memRead s' x → memRead t x = memRead t' x

/-! ### Invariants and whole runs -/

/-- Reset as the spec gives it (R11 to R14), at the model's reference configuration (log entries 3 and 4). -/
def Obligations.ResetState : Prop :=
  State.reset.pc = 0 ∧ State.reset.terminated = false ∧ State.reset.fault = none ∧
    State.reset.status = .running ∧ (∀ a, memRead State.reset a = 0) ∧
    load State.reset.cfg ['0'] = .loaded State.reset

/-- The invariant and the bound on `pc` hold at `State.reset`, whose configuration and all-zero memory are the
model's choice (log entries 3 and 4). -/
def Obligations.ResetHasInvariant : Prop := State.reset.Inv ∧ State.reset.PcReachable

/-- Every load that succeeds gives a well-formed state. -/
def Obligations.LoadedStateHasInvariant : Prop :=
  ∀ (cfg : Config) (text : List Char) (s : State), load cfg text = .loaded s →
    s.Inv ∧ s.PcReachable ∧ s.cfg = cfg

/-- From every well-formed state, reached or not, a step gives a well-formed state: canonical memory of words in
range, a `pc` that is a word, a well-formed fault record, never both stops at once. -/
def Obligations.StepKeepsInvariant : Prop :=
  ∀ s t : State, s.Inv → step s = .next t → t.Inv

/-- From every state with `pc` a multiple of 4 and at most `CAP + 3`, a step gives such a state. -/
def Obligations.StepKeepsPcReachable : Prop :=
  ∀ s t : State, s.PcReachable → step s = .next t → t.PcReachable

/-- R3's purpose: at every ADD or MUL of a legal configuration, `pc + 4` and the operand-word addresses are
words, so no address computation wraps. -/
def Obligations.NoAddressWraps : Prop :=
  ∀ s : State, s.cfg.Legal → AtArithmetic s →
    s.pc < s.cfg.cap ∧ s.pc + 4 ≤ 2 ^ s.cfg.w - 1 ∧ ∀ k, k ≤ 3 → IsWord s.cfg.w (s.pc + k)

/-- The upper bounds of R76: from a load, every reachable `pc` is a multiple of 4, at most the least one that is
`>= CAP`; an ADD or MUL executes only below `CAP`, and its operand words lie at `CAP + 2` at most. That the least
such multiple is reached is not stated here. -/
def Obligations.ReachableProgramCounters : Prop :=
  ∀ (cfg : Config) (text : List Char) (s : State) (n : Nat), load cfg text = .loaded s →
    (advance^[n] s).pc % 4 = 0 ∧ (advance^[n] s).pc ≤ cfg.cap + 3 ∧
    (∀ m, m % 4 = 0 → cfg.cap ≤ m → (advance^[n] s).pc ≤ m) ∧
    (AtArithmetic (advance^[n] s) →
      (advance^[n] s).pc < cfg.cap ∧ ∀ k, 1 ≤ k → k ≤ 3 → (advance^[n] s).pc + k ≤ cfg.cap + 2)

/-- R77: from a load, the core leaves Running after at most `ceil(CAP / 4) + 1` steps. -/
def Obligations.EveryRunStops : Prop :=
  ∀ (cfg : Config) (text : List Char) (s : State), load cfg text = .loaded s →
    ∃ n, n ≤ (cfg.cap + 3) / 4 + 1 ∧ (advance^[n] s).status ≠ .running

/-- R79: from every state of a legal configuration, `run` is the steps taken while the status is Running, and
ends with a core that is not Running. The bound inside `run` is the model's (log entry 10); this says that it
never cuts a run short. -/
def Obligations.RunStepsUntilStopped : Prop :=
  ∀ s : State, s.cfg.Legal → (run s).status ≠ .running ∧
    ∃ n, run s = advance^[n] s ∧ ∀ k, k < n → (advance^[k] s).status = .running

/-- R80: the instruction count of a run of `n` steps is `n`, or `n - 1` when the last one raised a fault; steps
on a stopped core add nothing. -/
def Obligations.InstructionCountOfARun : Prop :=
  ∀ (s : State) (n m : Nat), s.cfg.Legal → s.status = .running →
    (∀ k, k < n → (advance^[k] s).status = .running) → (advance^[n] s).status ≠ .running → n ≤ m →
    ((advance^[n] s).status = .halted → instructionCount m s = n) ∧
      ((advance^[n] s).status = .faulted → instructionCount m s + 1 = n)

/-! ### The program load -/

/-- R117, R118: a load that succeeds places the words the fields spell at 0, 1, 2, ..., 0 above them, and starts
at `pc` 0, Running. -/
def Obligations.LoadGivesInitialState : Prop :=
  ∀ (cfg : Config) (text : List Char) (s : State), load cfg text = .loaded s →
    (∀ k, memRead s k = ((programFields text).map decimalValue).getD k 0) ∧
    (programFields text).length ≤ cfg.cap ∧ s.cfg = cfg ∧
    s.pc = 0 ∧ s.terminated = false ∧ s.fault = none ∧ s.status = .running

/-- R114, R115: a load fails with ParseError exactly when some field is not a non-empty string of ASCII digits
whose value fits in a word. -/
def Obligations.ParseErrorExactlyOnInvalidField : Prop :=
  ∀ (cfg : Config) (text : List Char), cfg.Legal →
    (load cfg text = .parseError ↔
      ∃ f ∈ programFields text,
        ¬ (f ≠ [] ∧ (∀ c ∈ f, 48 ≤ c.toNat ∧ c.toNat ≤ 57) ∧ decimalValue f ≤ 2 ^ cfg.w - 1))

/-- R116: a load fails with LoadCapacityExceeded exactly when every field is valid and the commas of the trimmed
text make more than `CAP` fields; an invalid field gives ParseError whatever the count. -/
def Obligations.LoadBeyondCapacityFails : Prop :=
  ∀ (cfg : Config) (text : List Char), cfg.Legal →
    (load cfg text = .loadCapacityExceeded ↔
      (∀ f ∈ programFields text,
        f ≠ [] ∧ (∀ c ∈ f, 48 ≤ c.toNat ∧ c.toNat ≤ 57) ∧ decimalValue f ≤ 2 ^ cfg.w - 1) ∧
      cfg.cap < (trim text).count ',' + 1) ∧
    (∀ f ∈ programFields text,
      ¬ (f ≠ [] ∧ (∀ c ∈ f, 48 ≤ c.toNat ∧ c.toNat ≤ 57) ∧ decimalValue f ≤ 2 ^ cfg.w - 1) →
      load cfg text = .parseError)

/-- R112: trimming takes off white space at the two ends and nothing else, all of it; a character that remains
and is neither a digit nor a comma makes the load fail. -/
def Obligations.TrimTakesWhiteSpaceAtTheEnds : Prop :=
  ∀ text : List Char,
    (∃ before after, text = before ++ trim text ++ after ∧
      before.all isSpace = true ∧ after.all isSpace = true) ∧
    (∀ c, (trim text).head? = some c ∨ (trim text).getLast? = some c → isSpace c = false) ∧
    (∀ c, isSpace c = true ↔ c.toNat ∈ [0x20, 0x09, 0x0A, 0x0B, 0x0C, 0x0D]) ∧
    (∀ cfg : Config, cfg.Legal → ∀ c ∈ trim text, c.isDigit = false → c ≠ ',' →
      load cfg text = .parseError)

/-- R113: the fields joined by commas are the trimmed text, no field holds a comma, and there is one more field
than commas. -/
def Obligations.FieldsAreSplitAtCommas : Prop :=
  ∀ text : List Char,
    List.intercalate [','] (programFields text) = trim text ∧
    (∀ f ∈ programFields text, ',' ∉ f) ∧
    (programFields text).length = (trim text).count ',' + 1

/-- Any non-empty list of at most `CAP` words, written as program text (R111), loads as those words. -/
def Obligations.ProgramTextLoadsBack : Prop :=
  ∀ (cfg : Config) (words : List Nat), cfg.Legal → words ≠ [] → words.length ≤ cfg.cap →
    (∀ v ∈ words, IsWord cfg.w v) →
    ∃ s, load cfg (programText words) = .loaded s ∧ s.pc = 0 ∧ s.status = .running ∧
      ∀ k, memRead s k = words.getD k 0

/-! ### The host interface -/

/-- R120: a Poke before the first step writes one cell and changes nothing else; after it, on a stopped core, or
beyond capacity, it is refused; after a Step or a Run every Poke is refused. -/
def Obligations.PokeOnlyBeforeTheFirstStep : Prop :=
  ∀ (x : Session) (a v : Nat),
    (x.started = true ∨ x.core.status ≠ .running → poke a v x = .refused .started) ∧
    (x.started = false → x.core.status = .running → x.core.cfg.cap ≤ a →
      poke a v x = .refused (.capacityExceeded a)) ∧
    (x.started = false → x.core.status = .running → a < x.core.cfg.cap → IsWord x.core.cfg.w v →
      ∃ y, poke a v x = .poked y ∧ memRead y.core a = v ∧
        (∀ b, b ≠ a → memRead y.core b = memRead x.core b) ∧
        y.core.cfg = x.core.cfg ∧ y.core.pc = x.core.pc ∧ y.core.terminated = x.core.terminated ∧
        y.core.fault = x.core.fault ∧ y.started = false ∧ y.icount = x.icount) ∧
    poke a v (hostStep x) = .refused .started ∧ poke a v (hostRun x) = .refused .started

/-- A Poke that is taken keeps the core well formed. -/
def Obligations.PokeKeepsInvariant : Prop :=
  ∀ (x y : Session) (a v : Nat), x.core.Inv → poke a v x = .poked y → y.core.Inv

/-- R122, R79: a Run is the same as Step issued as often as the model's step bound says (log entry 10), the
instruction count included. -/
def Obligations.RunIsRepeatedStep : Prop :=
  ∀ x : Session, x.core.cfg.Legal → hostRun x = hostStep^[stepBound x.core] x

/-- R124: from a load, a step ceiling of at least `ceil(CAP / 4) + 1` never cuts a run short. The session it is
said of holds the interface's own state (log entries 11 and 17). -/
def Obligations.LargeStepCeilingNeverCutsARun : Prop :=
  ∀ (cfg : Config) (text : List Char) (s : State) (n : Nat), load cfg text = .loaded s →
    (cfg.cap + 3) / 4 + 1 ≤ n → hostRunCeiling n (openSession s) = hostRun (openSession s)

/-- R125: the result is the word at address 0 once Halted; a core that is not Halted has none. -/
def Obligations.ResultIsCellZeroOnceHalted : Prop :=
  ∀ x : Session,
    (x.core.status = .halted → resultCell x = some (memRead x.core 0)) ∧
    (x.core.status ≠ .halted → resultCell x = none)

/-- R126: before the first step, with cells 1 and 2 inside capacity, noun and verb go to those cells, and the
run starts from that memory with nothing else changed. -/
def Obligations.InputsGoToCellsOneAndTwo : Prop :=
  ∀ (x : Session) (noun verb : Nat), x.started = false → x.core.status = .running →
    3 ≤ x.core.cfg.cap → IsWord x.core.cfg.w noun → IsWord x.core.cfg.w verb →
    ∃ y s, runWithInputs noun verb x = .ran y ∧ y.core = run s ∧
      memRead s 1 = noun ∧ memRead s 2 = verb ∧
      (∀ a, a ≠ 1 → a ≠ 2 → memRead s a = memRead x.core a) ∧
      s.cfg = x.core.cfg ∧ s.pc = x.core.pc ∧ s.terminated = x.core.terminated ∧ s.fault = x.core.fault

/-- R127: the search returns a pair exactly when that pair's run ends, unfaulted, with the target in cell 0 and
every earlier pair's run ends without the target and without a fault; it aborts with a fault exactly when the
first run to decide anything raised it; it returns NoSolution exactly when no run of the domain decides. -/
def Obligations.SearchReturnsFirstPair : Prop :=
  ∀ (template : Session) (target : Nat),
    (∀ noun verb, search template target = .found noun verb ↔
      (noun ≤ 100 ∧ verb ≤ 100 ∧ trial template target (noun, verb) = .hit ∧
        ∀ n v, n ≤ 100 → v ≤ 100 → (n < noun ∨ (n = noun ∧ v < verb)) →
          trial template target (n, v) = .miss)) ∧
    (∀ f, search template target = .aborted f ↔
      ∃ noun verb, noun ≤ 100 ∧ verb ≤ 100 ∧ trial template target (noun, verb) = .faulted f ∧
        ∀ n v, n ≤ 100 → v ≤ 100 → (n < noun ∨ (n = noun ∧ v < verb)) →
          trial template target (n, v) = .miss) ∧
    (search template target = .noSolution ↔
      ∀ n v, n ≤ 100 → v ≤ 100 → trial template target (n, v) = .miss)

/-- R128: in whatever order the trials finish, the parallel search gives the sequential result. R128 is silent on
a trial that faults or takes no pokes; that it then decides as it does in sequence is the model's reading (log
entry 13). -/
def Obligations.ParallelSearchIsSequential : Prop :=
  ∀ (template : Session) (target : Nat) (finished : List Inputs), finished.Perm searchDomain →
    searchParallel template target finished = search template target
end

