-- ==== Sys2Proof/Laws/Decode.lean ====
section
/-! SUPPORT. The cases of decoding, and the length of the words of an instruction. -/

namespace Sys2Proof

theorem decodeAt_of_one {read : Nat → Nat} {a : Nat} (h : read a = 1) :
    decodeAt read a = .add (read (a + 1)) (read (a + 2)) (read (a + 3)) := by
  simp [decodeAt, h]

theorem decodeAt_of_two {read : Nat → Nat} {a : Nat} (h : read a = 2) :
    decodeAt read a = .mul (read (a + 1)) (read (a + 2)) (read (a + 3)) := by
  simp [decodeAt, h]

theorem decodeAt_of_other {read : Nat → Nat} {a : Nat} (h1 : read a ≠ 1) (h2 : read a ≠ 2) :
    decodeAt read a = .halt (read a) := by
  simp [decodeAt, h1, h2]

theorem splitWords_length (w n v : Nat) : (splitWords w n v).length = n := by
  induction n generalizing v with
  | zero => rfl
  | succ n ih => simp [splitWords, ih]

end Sys2Proof
end

