-- ==== Sys2Proof/Laws/State.lean ====
section
/-! SUPPORT. One lemma for each field under each update of the state. -/

namespace Sys2Proof.Machine

variable (s : State) (m : Memory) (v : Nat) (b : Bool) (f : Option Fault)

@[simp] theorem State.setMem_cfg : (s.setMem m).cfg = s.cfg := rfl
@[simp] theorem State.setMem_mem : (s.setMem m).mem = m := rfl
@[simp] theorem State.setMem_pc : (s.setMem m).pc = s.pc := rfl
@[simp] theorem State.setMem_terminated : (s.setMem m).terminated = s.terminated := rfl
@[simp] theorem State.setMem_fault : (s.setMem m).fault = s.fault := rfl

@[simp] theorem State.setPc_cfg : (s.setPc v).cfg = s.cfg := rfl
@[simp] theorem State.setPc_mem : (s.setPc v).mem = s.mem := rfl
@[simp] theorem State.setPc_pc : (s.setPc v).pc = v := rfl
@[simp] theorem State.setPc_terminated : (s.setPc v).terminated = s.terminated := rfl
@[simp] theorem State.setPc_fault : (s.setPc v).fault = s.fault := rfl

@[simp] theorem State.setTerminated_cfg : (s.setTerminated b).cfg = s.cfg := rfl
@[simp] theorem State.setTerminated_mem : (s.setTerminated b).mem = s.mem := rfl
@[simp] theorem State.setTerminated_pc : (s.setTerminated b).pc = s.pc := rfl
@[simp] theorem State.setTerminated_terminated : (s.setTerminated b).terminated = b := rfl
@[simp] theorem State.setTerminated_fault : (s.setTerminated b).fault = s.fault := rfl

@[simp] theorem State.setFault_cfg : (s.setFault f).cfg = s.cfg := rfl
@[simp] theorem State.setFault_mem : (s.setFault f).mem = s.mem := rfl
@[simp] theorem State.setFault_pc : (s.setFault f).pc = s.pc := rfl
@[simp] theorem State.setFault_terminated : (s.setFault f).terminated = s.terminated := rfl
@[simp] theorem State.setFault_fault : (s.setFault f).fault = f := rfl

@[simp] theorem State.zeroed_cfg (c : Config) : (State.zeroed c).cfg = c := rfl
@[simp] theorem State.zeroed_mem (c : Config) : (State.zeroed c).mem = [] := rfl
@[simp] theorem State.zeroed_pc (c : Config) : (State.zeroed c).pc = 0 := rfl
@[simp] theorem State.zeroed_terminated (c : Config) : (State.zeroed c).terminated = false := rfl
@[simp] theorem State.zeroed_fault (c : Config) : (State.zeroed c).fault = none := rfl

/-! ### The status (R15) -/

theorem State.status_running_iff : s.status = .running ↔ s.fault = none ∧ s.terminated = false := by
  unfold State.status
  cases s.fault <;> cases s.terminated <;> simp

theorem State.status_halted_iff : s.status = .halted ↔ s.fault = none ∧ s.terminated = true := by
  unfold State.status
  cases s.fault <;> cases s.terminated <;> simp

theorem State.status_faulted_iff : s.status = .faulted ↔ s.fault ≠ none := by
  unfold State.status
  cases s.fault <;> cases s.terminated <;> simp

end Sys2Proof.Machine
end

