-- ==== Sys2Proof/Laws/Memory.lean ====
section
/-! SUPPORT. What the memory operations do to a read, and that they keep the canonical form and the range. -/

namespace Sys2Proof.Machine

/-! ### Reads -/

@[simp] theorem Memory.read_nil (a : Nat) : Memory.read [] a = 0 := rfl

theorem Memory.read_cons (b : Nat) (v : Nat) (m : Memory) (a : Nat) :
    Memory.read ((b, v) :: m) a = if b = a then v else Memory.read m a := rfl

theorem Memory.erase_cons (b : Nat) (v : Nat) (m : Memory) (a : Nat) :
    Memory.erase ((b, v) :: m) a = if b = a then Memory.erase m a else (b, v) :: Memory.erase m a := by
  by_cases h : b = a <;> simp [Memory.erase, h]

theorem Memory.read_erase (m : Memory) (a b : Nat) :
    (m.erase a).read b = if b = a then 0 else m.read b := by
  induction m with
  | nil => simp [Memory.erase]
  | cons c m ih =>
    obtain ⟨k, v⟩ := c
    rw [Memory.erase_cons]
    by_cases hk : k = a
    · subst hk
      by_cases hb : b = k
      · subst hb; simpa using ih
      · simp [ih, hb, Memory.read_cons, Ne.symm hb]
    · by_cases hb : b = a
      · subst hb; simp [hk, Memory.read_cons, ih]
      · simp [hk, Memory.read_cons, ih, hb]

/-- A new pair is what its address reads as, when no other pair names that address. -/
theorem Memory.read_insert (m : Memory) (a b : Nat) (v : Nat) (hm : ∀ c ∈ m, c.1 ≠ a) :
    (m.insert a v).read b = if b = a then v else m.read b := by
  induction m with
  | nil => simp [Memory.insert, Memory.read_cons, eq_comm]
  | cons c m ih =>
    obtain ⟨k, u⟩ := c
    have hk : k ≠ a := hm (k, u) (by simp)
    have hr : ∀ c ∈ m, c.1 ≠ a := fun c hc => hm c (by simp [hc])
    by_cases ha : a < k
    · simp [Memory.insert, ha, Memory.read_cons, eq_comm]
    · by_cases hb : b = a
      · subst hb; simp [Memory.insert, ha, Memory.read_cons, hk, ih hr]
      · simp [Memory.insert, ha, Memory.read_cons, ih hr, hb]

theorem Memory.mem_erase {m : Memory} {a : Nat} {c : Nat × Nat} (h : c ∈ m.erase a) :
    c ∈ m ∧ c.1 ≠ a := by
  simpa [Memory.erase] using h

theorem Memory.mem_insert {m : Memory} {a : Nat} {v : Nat} {c : Nat × Nat} (h : c ∈ m.insert a v) :
    c = (a, v) ∨ c ∈ m := by
  induction m with
  | nil => simpa [Memory.insert] using h
  | cons d m ih =>
    obtain ⟨k, u⟩ := d
    by_cases ha : a < k
    · simpa [Memory.insert, ha] using h
    · simp only [Memory.insert, ha, if_false, List.mem_cons] at h
      rcases h with h | h
      · simp [h]
      · rcases ih h with h | h <;> simp [h]

/-- The one law of a write, over every memory: the cell reads as the value, every other cell as before. -/
theorem Memory.read_write (m : Memory) (a b : Nat) (v : Nat) :
    (m.write a v).read b = if b = a then v else m.read b := by
  unfold Memory.write
  by_cases hv : v = 0
  · simp [hv, Memory.read_erase]
  · rw [if_neg hv, Memory.read_insert _ _ _ _ (fun c hc => (Memory.mem_erase hc).2), Memory.read_erase]
    by_cases hb : b = a <;> simp [hb]

/-! ### The canonical form -/

theorem Memory.wfFrom_cons (lo k : Nat) (u : Nat) (m : Memory) :
    Memory.wfFrom lo ((k, u) :: m) = true ↔ lo ≤ k ∧ u ≠ 0 ∧ Memory.wfFrom (k + 1) m = true := by
  simp [Memory.wfFrom, and_assoc]

theorem Memory.wfFrom_mono {lo hi : Nat} {m : Memory} (h : lo ≤ hi) (hm : Memory.wfFrom hi m = true) :
    Memory.wfFrom lo m = true := by
  cases m with
  | nil => rfl
  | cons c m =>
    obtain ⟨k, u⟩ := c
    rw [Memory.wfFrom_cons] at hm ⊢
    exact ⟨le_trans h hm.1, hm.2⟩

theorem Memory.wfFrom_erase (a : Nat) {lo : Nat} {m : Memory} (hm : Memory.wfFrom lo m = true) :
    Memory.wfFrom lo (m.erase a) = true := by
  induction m generalizing lo with
  | nil => rfl
  | cons c m ih =>
    obtain ⟨k, u⟩ := c
    rw [Memory.wfFrom_cons] at hm
    rw [Memory.erase_cons]
    split
    · exact Memory.wfFrom_mono (by omega) (ih hm.2.2)
    · exact (Memory.wfFrom_cons _ _ _ _).2 ⟨hm.1, hm.2.1, ih hm.2.2⟩

theorem Memory.wfFrom_insert {a lo : Nat} {v : Nat} {m : Memory} (hv : v ≠ 0) (ha : lo ≤ a)
    (hn : ∀ c ∈ m, c.1 ≠ a) (hm : Memory.wfFrom lo m = true) :
    Memory.wfFrom lo (m.insert a v) = true := by
  induction m generalizing lo with
  | nil => simp [Memory.insert, Memory.wfFrom, ha, hv]
  | cons c m ih =>
    obtain ⟨k, u⟩ := c
    rw [Memory.wfFrom_cons] at hm
    have hk : k ≠ a := hn (k, u) (by simp)
    by_cases h : a < k
    · simp only [Memory.insert, h, if_true]
      exact (Memory.wfFrom_cons _ _ _ _).2 ⟨ha, hv, (Memory.wfFrom_cons _ _ _ _).2 ⟨h, hm.2⟩⟩
    · simp only [Memory.insert, h, if_false]
      exact (Memory.wfFrom_cons _ _ _ _).2
        ⟨hm.1, hm.2.1, ih (by omega) (fun c hc => hn c (by simp [hc])) hm.2.2⟩

/-- Every write keeps the canonical form. -/
theorem Memory.wf_write {m : Memory} (a : Nat) (v : Nat) (hm : m.wf = true) : (m.write a v).wf = true := by
  unfold Memory.write
  split
  · exact Memory.wfFrom_erase a hm
  · exact Memory.wfFrom_insert ‹_› (Nat.zero_le _) (fun c hc => (Memory.mem_erase hc).2)
      (Memory.wfFrom_erase a hm)

theorem Memory.wf_nil : Memory.wf [] = true := rfl

/-! ### The range of the cells -/

theorem cellsInRange_iff (cfg : Config) (m : Memory) :
    cellsInRange cfg m = true ↔ ∀ c ∈ m, c.1 < cfg.cap ∧ c.2 < 2 ^ cfg.w := by
  simp [cellsInRange]

theorem cellsInRange_write {cfg : Config} {m : Memory} {a : Nat} {v : Nat} (ha : a < cfg.cap)
    (hv : v < 2 ^ cfg.w) (hm : cellsInRange cfg m = true) : cellsInRange cfg (m.write a v) = true := by
  rw [cellsInRange_iff] at hm ⊢
  intro c hc
  unfold Memory.write at hc
  split at hc
  · exact hm c (Memory.mem_erase hc).1
  · rcases Memory.mem_insert hc with rfl | h
    · exact ⟨ha, hv⟩
    · exact hm c (Memory.mem_erase h).1

theorem Memory.read_lt {cfg : Config} {m : Memory} (hm : cellsInRange cfg m = true) (a : Nat) :
    m.read a < 2 ^ cfg.w := by
  rw [cellsInRange_iff] at hm
  induction m with
  | nil => simp
  | cons c m ih =>
    obtain ⟨k, u⟩ := c
    rw [Memory.read_cons]
    split
    · exact (hm (k, u) (by simp)).2
    · exact ih (fun c hc => hm c (by simp [hc]))

/-! ### Words placed by a load -/

theorem Memory.read_memoryOfWords_below {lo a : Nat} (ws : List Nat) (h : a < lo) :
    (memoryOfWords lo ws).read a = 0 := by
  induction ws generalizing lo with
  | nil => rfl
  | cons v vs ih =>
    simp only [memoryOfWords]
    split
    · exact ih (by omega)
    · rw [Memory.read_cons, if_neg (by omega)]; exact ih (by omega)

/-- A load's memory reads as the words, and as 0 beyond them (R117). -/
theorem Memory.read_memoryOfWords (lo k : Nat) (ws : List Nat) :
    (memoryOfWords lo ws).read (lo + k) = ws.getD k 0 := by
  induction ws generalizing lo k with
  | nil => simp [memoryOfWords]
  | cons v vs ih =>
    cases k with
    | zero =>
      simp only [memoryOfWords]
      split
      · rw [Memory.read_memoryOfWords_below vs (by omega)]; simp [*]
      · simp [Memory.read_cons]
    | succ k =>
      have h := ih (lo + 1) k
      rw [show lo + 1 + k = lo + (k + 1) by omega] at h
      simp only [memoryOfWords]
      split
      · simpa using h
      · rw [Memory.read_cons, if_neg (by omega)]; simpa using h

theorem Memory.wfFrom_memoryOfWords (lo : Nat) (ws : List Nat) :
    Memory.wfFrom lo (memoryOfWords lo ws) = true := by
  induction ws generalizing lo with
  | nil => rfl
  | cons v vs ih =>
    simp only [memoryOfWords]
    split
    · exact Memory.wfFrom_mono (by omega) (ih (lo + 1))
    · exact (Memory.wfFrom_cons _ _ _ _).2 ⟨le_refl _, ‹_›, ih (lo + 1)⟩

theorem Memory.mem_memoryOfWords {lo : Nat} {ws : List Nat} {c : Nat × Nat}
    (h : c ∈ memoryOfWords lo ws) : lo ≤ c.1 ∧ c.1 < lo + ws.length ∧ c.2 ∈ ws := by
  induction ws generalizing lo with
  | nil => simp [memoryOfWords] at h
  | cons v vs ih =>
    have step : c ∈ memoryOfWords (lo + 1) vs →
        lo ≤ c.1 ∧ c.1 < lo + (v :: vs).length ∧ c.2 ∈ v :: vs := by
      intro h
      obtain ⟨h1, h2, h3⟩ := ih h
      exact ⟨by omega, by simp only [List.length_cons]; omega, by simp [h3]⟩
    simp only [memoryOfWords] at h
    split at h
    · exact step h
    · rcases List.mem_cons.1 h with rfl | h
      · exact ⟨le_refl _, by simp, by simp⟩
      · exact step h

/-! ### The access primitives -/

theorem memRead_of_lt {s : State} {a : Nat} (h : a < s.cfg.cap) : memRead s a = s.mem.read a := by
  simp [memRead, h]

theorem memRead_of_ge {s : State} {a : Nat} (h : s.cfg.cap ≤ a) : memRead s a = 0 := by
  simp [memRead, Nat.not_lt.2 h]

/-- What a word read is not 0 says about its address. -/
theorem lt_cap_of_memRead_ne_zero {s : State} {a : Nat} (h : memRead s a ≠ 0) : a < s.cfg.cap := by
  by_contra hc
  exact h (memRead_of_ge (Nat.not_lt.1 hc))

theorem memRead_lt {s : State} (hm : cellsInRange s.cfg s.mem = true) (a : Nat) :
    memRead s a < 2 ^ s.cfg.w := by
  unfold memRead
  split
  · exact Memory.read_lt hm a
  · exact Nat.two_pow_pos _

/-- Everything a memory write can do (R22). -/
theorem memWrite_cases (a v : Nat) (s : State) :
    (a < s.cfg.cap ∧ memWrite a v s = .ok (s.setMem (s.mem.write a v))) ∨
      (s.cfg.cap ≤ a ∧ memWrite a v s = .error (.capacityExceeded a)) := by
  unfold memWrite
  by_cases h : a < s.cfg.cap
  · exact .inl ⟨h, by simp [h]⟩
  · exact .inr ⟨by omega, by simp [h]⟩

/-- What a read sees after a cell inside capacity is replaced. -/
theorem memRead_setMem_write (s : State) {a : Nat} (ha : a < s.cfg.cap) (v b : Nat) :
    memRead (s.setMem (s.mem.write a v)) b = if b = a then v else memRead s b := by
  by_cases hb : b = a
  · subst hb; simp [memRead, ha, Memory.read_write]
  · simp [memRead, Memory.read_write, hb]

/-- A read looks at the configuration and the memory alone. -/
theorem memRead_congr {s t : State} (hc : t.cfg = s.cfg) (hm : t.mem = s.mem) (a : Nat) :
    memRead t a = memRead s a := by
  simp [memRead, hc, hm]

@[simp] theorem memRead_setPc (s : State) (v a : Nat) : memRead (s.setPc v) a = memRead s a := rfl
@[simp] theorem memRead_setFault (s : State) (f : Option Fault) (a : Nat) :
    memRead (s.setFault f) a = memRead s a := rfl
@[simp] theorem memRead_setTerminated (s : State) (b : Bool) (a : Nat) :
    memRead (s.setTerminated b) a = memRead s a := rfl

/-- Placing words from outside changes the memory alone. -/
theorem placeWords_fields (s : State) (a : Nat) (ws : List Nat) :
    (placeWords s a ws).cfg = s.cfg ∧ (placeWords s a ws).pc = s.pc ∧
      (placeWords s a ws).terminated = s.terminated ∧ (placeWords s a ws).fault = s.fault := by
  induction ws generalizing s a with
  | nil => exact ⟨rfl, rfl, rfl, rfl⟩
  | cons v vs ih =>
    simp only [placeWords]
    split
    · simpa using ih (s.setMem (s.mem.write a v)) (a + 1)
    · exact ih s (a + 1)

theorem placeWords_wf (s : State) (a : Nat) (ws : List Nat) (hm : s.mem.wf = true) :
    (placeWords s a ws).mem.wf = true := by
  induction ws generalizing s a with
  | nil => exact hm
  | cons v vs ih =>
    simp only [placeWords]
    apply ih
    split
    · exact Memory.wf_write _ _ hm
    · exact hm

/-- A read of placed words: the word inside the placed range, the old content elsewhere. -/
theorem memRead_placeWords (s : State) (a b : Nat) (ws : List Nat) :
    memRead (placeWords s a ws) b =
      if a ≤ b ∧ b < a + ws.length ∧ b < s.cfg.cap then ws.getD (b - a) 0 else memRead s b := by
  induction ws generalizing s a with
  | nil => simp [placeWords]; intro h1 h2; omega
  | cons v vs ih =>
    simp only [placeWords, ih]
    by_cases ha : a < s.cfg.cap
    · simp only [ha, if_true, State.setMem_cfg, memRead_setMem_write s ha, List.length_cons]
      by_cases hb : b = a
      · subst hb; simp [ha]
      · by_cases h1 : a + 1 ≤ b ∧ b < a + 1 + vs.length ∧ b < s.cfg.cap
        · rw [if_pos h1, if_pos (by omega), show b - a = (b - (a + 1)) + 1 by omega]; simp
        · rw [if_neg h1, if_neg hb, if_neg (by omega)]
    · simp only [ha, if_false, List.length_cons]
      rw [if_neg (by omega), if_neg (by omega)]

end Sys2Proof.Machine
end

