-- ==== Sys2Proof/Laws/PerInstr.lean ====
section
/-! SUPPORT. A statement for each instruction as syntax: its first word alone gives its length (R46), and its
words are words of the core. -/

namespace Sys2Proof.Laws.LengthFromFirstWord

/-- The words of a well-formed instruction are as many as its first word says, and fit the word width. -/
def Statement (i : Instr) : Prop :=
  ∀ w, 25 ≤ w → i.wellFormed w = true →
    (encode i).length = i.length ∧ lengthOfOpcode ((encode i).getD 0 0) = i.length ∧
      ∀ v ∈ encode i, IsWord w v

/-- The two opcode words are words of every legal width. -/
theorem two_lt_pow {w : Nat} (hw : 25 ≤ w) : 2 < 2 ^ w :=
  lt_of_lt_of_le (by norm_num) (Nat.pow_le_pow_right (by norm_num) hw)

theorem add (src1 src2 dst : Nat) : Statement (.add src1 src2 dst) := by
  intro w hw h
  have := two_lt_pow hw
  simp [Instr.wellFormed] at h
  simp [encode, Instr.length, lengthOfOpcode, h]
  omega

theorem mul (src1 src2 dst : Nat) : Statement (.mul src1 src2 dst) := by
  intro w hw h
  have := two_lt_pow hw
  simp [Instr.wellFormed] at h
  simp [encode, Instr.length, lengthOfOpcode, h]
  omega

theorem halt (op : Nat) : Statement (.halt op) := by
  intro w _ h
  simp [Instr.wellFormed] at h
  simp [encode, Instr.length, lengthOfOpcode, h]

end Sys2Proof.Laws.LengthFromFirstWord
end

