-- ==== Sys2Proof/Laws/Word.lean ====
section
/-! SUPPORT. The bound of a word in its two spellings, and what a legal configuration says of it. -/

namespace Sys2Proof.Machine

theorem le_maxWord_iff (w r : Nat) : r ≤ maxWord w ↔ r < 2 ^ w := by
  have := Nat.two_pow_pos w
  unfold maxWord
  omega

theorem overflows_iff (cfg : Config) (r : Nat) : overflows cfg r = true ↔ 2 ^ cfg.w ≤ r := by
  have := Nat.two_pow_pos cfg.w
  rw [overflows, decide_eq_true_iff, maxWord]
  omega

theorem overflows_eq_false_iff (cfg : Config) (r : Nat) : overflows cfg r = false ↔ r < 2 ^ cfg.w := by
  rw [← Bool.not_eq_true, overflows_iff, Nat.not_le]

theorem faultWellFormed_capacityExceeded (cfg : Config) (a : Nat) :
    faultWellFormed cfg (some (.capacityExceeded a)) = true ↔ cfg.cap ≤ a ∧ a < 2 ^ cfg.w := by
  simp [faultWellFormed]

/-- The upper bound of R3 without a subtraction. -/
theorem cap_add_four_le {c : Config} (h : c.Legal) : c.cap + 4 ≤ 2 ^ c.w := by
  have h2 : 2 ^ 25 ≤ 2 ^ c.w := Nat.pow_le_pow_right (by norm_num) h.1
  have := h.2.2
  norm_num at h2
  omega

end Sys2Proof.Machine
end

