-- ==== Sys2Proof/Laws/Step.lean ====
section
/-! SUPPORT. Everything a meaning and a step can do, said once. -/

namespace Sys2Proof.Machine

/-- Everything ADD and MUL can do with an exact result (R61, R62, R94). -/
theorem writeResult_cases (r : Nat) (dst : Nat) (s : State) :
    (2 ^ s.cfg.w ≤ r ∧ writeResult r dst s = s.setFault (some .arithmeticOverflow)) ∨
      (r < 2 ^ s.cfg.w ∧ s.cfg.cap ≤ dst ∧
        writeResult r dst s = s.setFault (some (.capacityExceeded dst))) ∨
      (r < 2 ^ s.cfg.w ∧ dst < s.cfg.cap ∧
        writeResult r dst s = (s.setMem (s.mem.write dst r)).setPc (s.pc + 4)) := by
  unfold writeResult
  cases ho : overflows s.cfg r with
  | true => exact .inl ⟨(overflows_iff _ _).1 ho, rfl⟩
  | false =>
    have hr := (overflows_eq_false_iff _ _).1 ho
    rcases memWrite_cases dst r s with ⟨hd, hw⟩ | ⟨hd, hw⟩
    · exact .inr (.inr ⟨hr, hd, by simp [hw, advancePc]⟩)
    · exact .inr (.inl ⟨hr, hd, by simp [hw, raise]⟩)

/-- What executing the fetched instruction does: an ADD or a MUL writes its result, anything else halts. -/
theorem exec_fetch (s : State) :
    exec (fetch s) s =
      .next (if AtArithmetic s then
        writeResult (exactResult s) (dstAddress s) s else s.setTerminated true) := by
  unfold fetch decodeAt
  split
  · next h => simp [exec, execAdd, operandValue, AtArithmetic, exactResult, h]
  · split
    · next h1 h => simp [exec, execMul, operandValue, AtArithmetic, exactResult, h]
    · next h1 h2 => simp [exec, execHalt, terminate, AtArithmetic, h1, h2]

/-- Everything a step can do: nothing on a stopped core; otherwise a HALT, one of the two faults, or a
completed ADD or MUL. -/
theorem step_cases {s t : State} (h : step s = .next t) :
    s.cfg.Legal ∧
      ((s.status ≠ .running ∧ t = s) ∨
        (s.status = .running ∧
          ((¬ AtArithmetic s ∧ t = s.setTerminated true) ∨
            (AtArithmetic s ∧
              ((2 ^ s.cfg.w ≤ exactResult s ∧ t = s.setFault (some .arithmeticOverflow)) ∨
                (exactResult s < 2 ^ s.cfg.w ∧ s.cfg.cap ≤ dstAddress s ∧
                  t = s.setFault (some (.capacityExceeded (dstAddress s)))) ∨
                (exactResult s < 2 ^ s.cfg.w ∧ dstAddress s < s.cfg.cap ∧
                  t = (s.setMem (s.mem.write (dstAddress s) (exactResult s))).setPc
                    (s.pc + 4))))))) := by
  unfold step at h
  split at h
  case isFalse => cases h
  case isTrue hl =>
    refine ⟨hl, ?_⟩
    split at h
    case isFalse hr => cases h; exact .inl ⟨hr, rfl⟩
    case isTrue hr =>
      rw [exec_fetch] at h
      injection h with h
      subst h
      refine .inr ⟨hr, ?_⟩
      by_cases ho : AtArithmetic s
      · rw [if_pos ho]; exact .inr ⟨ho, writeResult_cases _ _ _⟩
      · rw [if_neg ho]; exact .inl ⟨ho, rfl⟩

/-- What it means that the step completes an ADD or a MUL. -/
theorem completes_iff (s : State) :
    completes s = true ↔ s.status = .running ∧ AtArithmetic s ∧ exactResult s < 2 ^ s.cfg.w ∧
      dstAddress s < s.cfg.cap := by
  rw [← overflows_eq_false_iff]
  unfold completes
  cases overflows s.cfg (exactResult s) <;> simp [and_assoc]

/-- A step of a legal configuration is `advance`. -/
theorem step_eq_advance {s : State} (h : s.cfg.Legal) : step s = .next (advance s) := by
  unfold advance step
  rw [if_pos h]
  split
  · rw [exec_fetch]
  · rfl

/-- No step writes the configuration. -/
theorem step_cfg {s t : State} (h : step s = .next t) : t.cfg = s.cfg := by
  obtain ⟨-, ⟨-, rfl⟩ | ⟨-, ⟨-, rfl⟩ | ⟨-, ⟨-, rfl⟩ | ⟨-, -, rfl⟩ | ⟨-, -, rfl⟩⟩⟩⟩ := step_cases h <;>
    rfl

theorem advance_cfg (s : State) : (advance s).cfg = s.cfg := by
  unfold advance
  split
  · exact step_cfg ‹_›
  · rfl
  · rfl

theorem advance_of_stopped {s : State} (h : s.status ≠ .running) : advance s = s := by
  unfold advance step
  by_cases hl : s.cfg.Legal
  · rw [if_pos hl, if_neg h]
  · rw [if_neg hl]

end Sys2Proof.Machine
end

