-- ==== Sys2Proof/Tests/Slice0.lean ====
section
/-! SUPPORT. Tests, whose expected results are the vectors of 95_test_vectors.md, and a witness for the
hypotheses of each statement. -/

namespace Sys2Proof.Tests

open Sys2Proof.Machine

/-- A core with `W = 64` and the given cells, as the spec's vectors write one. -/
def coreOf (cap : Nat) (words : List Nat) (pc : Nat) : State :=
  (initialState { w := 64, cap := cap } words).setPc pc

/-- The largest word at `W = 64`. -/
def maxW : Nat := 18446744073709551615

/-! ### WellFormed refuses each kind of ill-formed term -/

theorem test_wellFormed_refuses_wide_add_operands :
    (Instr.add (maxW + 1) 0 0).wellFormed 64 = false ∧ (Instr.add 0 (maxW + 1) 0).wellFormed 64 = false ∧
      (Instr.add 0 0 (maxW + 1)).wellFormed 64 = false := by decide

theorem test_wellFormed_refuses_wide_mul_operands :
    (Instr.mul (maxW + 1) 0 0).wellFormed 64 = false ∧ (Instr.mul 0 (maxW + 1) 0).wellFormed 64 = false ∧
      (Instr.mul 0 0 (maxW + 1)).wellFormed 64 = false := by decide

theorem test_wellFormed_refuses_bad_halt_words :
    (Instr.halt 1).wellFormed 64 = false ∧ (Instr.halt 2).wellFormed 64 = false ∧
      (Instr.halt (maxW + 1)).wellFormed 64 = false := by decide

theorem test_wellFormed_accepts_the_largest_words :
    (Instr.add maxW maxW maxW).wellFormed 64 = true ∧ (Instr.mul maxW maxW maxW).wellFormed 64 = true ∧
      (Instr.halt maxW).wellFormed 64 = true ∧ (Instr.halt 0).wellFormed 64 = true := by decide

/-! ### Decoding, from words written out by the opcode table -/

/-- `1,9,10,3` (S1). -/
theorem test_decode_add : decode [1, 9, 10, 3] = .add 9 10 3 := by decide

/-- `2,3,11,0` (S4). -/
theorem test_decode_mul : decode [2, 3, 11, 0] = .mul 3 11 0 := by decide

/-- V-D3 to V-D11: no mode digits, no illegal word. -/
theorem test_decode_halt :
    ([99, 0, 3, 98, 100, 101, 1001, 1101, maxW].map (fun op => decode [op, 1, 2, 3])) =
      [.halt 99, .halt 0, .halt 3, .halt 98, .halt 100, .halt 101, .halt 1001, .halt 1101, .halt maxW] := by
  decide

/-- V-D13: operand words beyond capacity read as 0. -/
theorem test_decode_operands_beyond_capacity : fetch (coreOf 4 [0, 0, 0, 1] 3) = .add 0 0 0 := by decide

/-- The table's numbering, first word lowest. -/
theorem test_decodeTableWord :
    decodeTableWord 256 (1 + 9 * 2 ^ 64 + 10 * 2 ^ 128 + 3 * 2 ^ 192) = some (.add 9 10 3) ∧
      decodeTableWord 64 2 = some (.mul 0 0 0) ∧ decodeTableWord 64 99 = some (.halt 99) := by decide

/-- The placed instruction is the first one fetched after reset. -/
theorem test_withFetchWord_is_fetched :
    fetch (State.reset.withFetchWord 256 (2 + 3 * 2 ^ 64 + 11 * 2 ^ 128)) = .mul 3 11 0 := by decide

/-! ### One step each -/

/-- V-A4: the destination is the instruction's own opcode. -/
theorem test_add_over_its_own_opcode :
    advance (coreOf 8 [1, 5, 6, 0, 0, 3, 4, 0] 0) = coreOf 8 [7, 5, 6, 0, 0, 3, 4, 0] 4 := by decide

/-- V-A10: overflow wins over capacity. -/
theorem test_add_overflow_wins :
    advance (coreOf 8 [1, 5, 6, 9, 0, maxW, 1, 0] 0) =
      (coreOf 8 [1, 5, 6, 9, 0, maxW, 1, 0] 0).setFault (some .arithmeticOverflow) := by decide

/-- V-X6: `2^32 * (2^32 - 1)`. -/
theorem test_mul_large_product :
    advance (coreOf 8 [2, 5, 6, 7, 0, 4294967296, 4294967295, 0] 0) =
      coreOf 8 [2, 5, 6, 7, 0, 4294967296, 4294967295, 18446744069414584320] 4 := by decide

/-- V-X9: `dst = 2^63` is beyond capacity. -/
theorem test_mul_beyond_capacity :
    (advance (coreOf 8 [2, 5, 6, 9223372036854775808, 0, 3, 4, 0] 0)).fault =
      some (.capacityExceeded 9223372036854775808) := by decide

/-- V-H3: 101 is a HALT. -/
theorem test_halt_on_101 :
    advance (coreOf 4 [101, 1, 2, 3] 0) = (coreOf 4 [101, 1, 2, 3] 0).setTerminated true := by decide

/-- V-H4: a `pc` at capacity halts. -/
theorem test_halt_at_capacity :
    advance (coreOf 4 [1, 0, 0, 0] 4) = (coreOf 4 [1, 0, 0, 0] 4).setTerminated true := by decide

/-! ### Load, host interface, search, assembler -/

/-- V-L2 and V-L10. -/
theorem test_load_trims_and_takes_leading_zeros :
    load { w := 64, cap := 4 } [' ', ' ', '1', ',', '2', ',', '3', '\n'] = .loaded (coreOf 4 [1, 2, 3] 0) ∧
      load { w := 64, cap := 4 } ['0', '0', '7', ',', '0'] = .loaded (coreOf 4 [7] 0) := by decide

/-- V-L3, V-L5, V-L6, V-L13, V-L14. -/
theorem test_load_failures :
    load { w := 64, cap := 4 } [] = .parseError ∧
      load { w := 64, cap := 4 } ['1', ',', '2', ','] = .parseError ∧
      load { w := 64, cap := 4 } ['1', ',', ' ', '2'] = .parseError ∧
      load { w := 64, cap := 4 } ['1', ',', '2', ',', '3', ',', '4', ',', '5'] = .loadCapacityExceeded ∧
      load { w := 64, cap := 4 } ['1', ',', '2', ',', '3', ',', 'x', ',', '5'] = .parseError := by decide

/-- V-L11, V-L12: the largest word, and one more. -/
theorem test_load_width_boundary :
    load { w := 64, cap := 4 } (decimal maxW) = .loaded (coreOf 4 [maxW] 0) ∧
      load { w := 64, cap := 4 } (decimal (maxW + 1)) = .parseError := by decide

/-- V-P6 and V-P7. -/
theorem test_poke_refusals :
    poke 1 5 (hostStep (openSession (coreOf 12 [99] 0))) = .refused .started ∧
      poke 12 5 (openSession (coreOf 12 [99] 0)) = .refused (.capacityExceeded 12) := by decide

/-- V-P3. -/
theorem test_search_first_pair :
    search (openSession (coreOf 5 [1, 0, 0, 0, 99] 0)) 3 = .found 0 2 := by decide

/-- V-S3: three steps to stop, the largest `pc` is `CAP + 3`. -/
theorem test_run_reaches_cap_plus_three :
    (hostRun (openSession (coreOf 5 [1, 4, 4, 0, 1] 0))).core.pc = 8 ∧
      (hostRun (openSession (coreOf 5 [1, 4, 4, 0, 1] 0))).icount = 3 := by decide

/-- `ADD 9, 10, 3 ; c`, an empty line, `.word 30` (R50). -/
theorem test_assemble :
    assemble 64 ['A', 'D', 'D', ' ', '9', ',', ' ', '1', '0', ',', ' ', '3', ' ', ';', ' ', 'c', '\n', '\n',
      '.', 'w', 'o', 'r', 'd', ' ', '3', '0'] = some [1, 9, 10, 3, 30] := by decide

/-- R51: a non-canonical halt is visible. -/
theorem test_disassemble_noncanonical :
    disassemble (.halt 101) = ['H', 'A', 'L', 'T', ' ', ';', ' ', 'o', 'p', '=', '1', '0', '1'] := by decide

/-! ### Witnesses: states and operands that meet the hypotheses of each statement

Named `witness_<statement>`; a statement with several clauses has a witness for each, at the boundary. -/

/-- V-A7: `MAX + 0` fits, the destination is the last cell. -/
def addMaxFits : State := coreOf 8 [1, 5, 6, 7, 0, maxW, 0, 0] 0
/-- V-A8: `MAX + 1`. -/
def addOverflows : State := coreOf 8 [1, 5, 6, 7, 0, maxW, 1, 0] 0
/-- V-A9: the destination is `CAP`. -/
def addBeyond : State := coreOf 8 [1, 5, 6, 8, 0, 1, 2, 0] 0
/-- V-A10: both. -/
def addBoth : State := coreOf 8 [1, 5, 6, 9, 0, maxW, 1, 0] 0
/-- V-X5: `1 * MAX` fits. -/
def mulMaxFits : State := coreOf 8 [2, 5, 6, 7, 0, 1, maxW, 0] 0
/-- V-X7: `2^32 * 2^32`. -/
def mulOverflows : State := coreOf 8 [2, 5, 6, 7, 0, 4294967296, 4294967296, 0] 0
/-- A MUL with the destination at `CAP`. -/
def mulBeyond : State := coreOf 8 [2, 5, 6, 8, 0, 3, 4, 0] 0
/-- V-H1. -/
def haltsNow : State := coreOf 4 [99, 1, 2, 3] 0
/-- V-H5's start: a Halted core. -/
def isHalted : State := advance haltsNow
/-- V-H6's start: a Faulted core. -/
def isFaulted : State := advance addOverflows

theorem witness_DecodeComparesWholeOpcodeWord :
    memRead addMaxFits 0 = 1 ∧ memRead mulMaxFits 0 = 2 ∧
      (memRead haltsNow 0 ≠ 1 ∧ memRead haltsNow 0 ≠ 2) ∧ haltsNow.cfg.cap ≤ 4 := by decide

theorem witness_PlacedEncodingDecodesToInstruction :
    haltsNow.cfg.Legal ∧ (Instr.add maxW 0 7).wellFormed haltsNow.cfg.w = true ∧
      0 + (Instr.add maxW 0 7).length ≤ haltsNow.cfg.cap ∧
      (Instr.halt maxW).wellFormed haltsNow.cfg.w = true ∧
      3 + (Instr.halt maxW).length ≤ haltsNow.cfg.cap := by decide

theorem witness_DecodedInstructionEncodesToItsWords : mulMaxFits.Inv := by decide

theorem witness_TableWordRunsAfterReset :
    decodeTableWord 256 (1 + 9 * 2 ^ 64 + 10 * 2 ^ 128 + 3 * 2 ^ 192) = some (.add 9 10 3) := by decide

theorem witness_DisassemblyReadsBack :
    25 ≤ 64 ∧ (Instr.add 9 10 maxW).wellFormed 64 = true ∧ (Instr.halt 101).wellFormed 64 = true := by
  decide

theorem witness_ReadBeyondCapacityIsZero : 3 < haltsNow.cfg.cap ∧ haltsNow.cfg.cap ≤ 4 := by decide

theorem witness_WriteStoresOrRaises : 7 < addMaxFits.cfg.cap ∧ addMaxFits.cfg.cap ≤ 8 := by decide

theorem witness_ReadReturnsMostRecentWrite :
    [(3, 7), (0, 5), (3, 9)].foldlM (fun u p => memWrite p.1 p.2 u) haltsNow =
      Except.ok (coreOf 4 [5, 1, 2, 9] 0) := by rfl

theorem witness_MemoriesThatReadAlikeAreEqual :
    Memory.wf [(0, 5), (3, 9)] = true ∧
      ∀ a, Memory.read (Memory.write (Memory.write [] 3 9) 0 5) a = Memory.read [(0, 5), (3, 9)] a :=
  ⟨by decide, fun _ => rfl⟩

theorem witness_AddExecutes :
    (addMaxFits.cfg.Legal ∧ addMaxFits.status = .running ∧ memRead addMaxFits addMaxFits.pc = 1) ∧
      (exactResult addMaxFits = 2 ^ 64 - 1 ∧ dstAddress addMaxFits = 7) ∧
      (addOverflows.cfg.Legal ∧ addOverflows.status = .running ∧ memRead addOverflows addOverflows.pc = 1) ∧
      exactResult addOverflows = 2 ^ 64 ∧
      (addBeyond.cfg.Legal ∧ addBeyond.status = .running ∧ memRead addBeyond addBeyond.pc = 1) ∧
      (exactResult addBeyond ≤ 2 ^ 64 - 1 ∧ dstAddress addBeyond = addBeyond.cfg.cap) := by decide

theorem witness_MulExecutes :
    (mulMaxFits.cfg.Legal ∧ mulMaxFits.status = .running ∧ memRead mulMaxFits mulMaxFits.pc = 2) ∧
      (exactResult mulMaxFits = 2 ^ 64 - 1 ∧ dstAddress mulMaxFits = 7) ∧
      (mulOverflows.cfg.Legal ∧ mulOverflows.status = .running ∧ memRead mulOverflows mulOverflows.pc = 2) ∧
      exactResult mulOverflows = 2 ^ 64 ∧
      (mulBeyond.cfg.Legal ∧ mulBeyond.status = .running ∧ memRead mulBeyond mulBeyond.pc = 2) ∧
      (exactResult mulBeyond ≤ 2 ^ 64 - 1 ∧ dstAddress mulBeyond = mulBeyond.cfg.cap) := by decide

theorem witness_HaltExecutes :
    (haltsNow.cfg.Legal ∧ haltsNow.status = .running ∧ memRead haltsNow haltsNow.pc ≠ 1 ∧
      memRead haltsNow haltsNow.pc ≠ 2) ∧
      ((coreOf 4 [1] 4).cfg.Legal ∧ (coreOf 4 [1] 4).status = .running ∧
        (coreOf 4 [1] 4).cfg.cap ≤ (coreOf 4 [1] 4).pc) := by decide

theorem witness_AddCompletes :
    memRead addMaxFits 5 + memRead addMaxFits 6 ≤ 2 ^ addMaxFits.cfg.w - 1 ∧ 7 < addMaxFits.cfg.cap := by
  decide

theorem witness_MulCompletes :
    memRead mulMaxFits 5 * memRead mulMaxFits 6 ≤ 2 ^ mulMaxFits.cfg.w - 1 ∧ 7 < mulMaxFits.cfg.cap := by
  decide

theorem witness_OverflowStopsWithoutWriting :
    2 ^ addOverflows.cfg.w - 1 < memRead addOverflows 5 + memRead addOverflows 6 ∧
      2 ^ mulOverflows.cfg.w - 1 < memRead mulOverflows 5 * memRead mulOverflows 6 := by decide

theorem witness_CapacityExceededOnlyAtWrite :
    (memRead addBeyond 5 + memRead addBeyond 6 ≤ 2 ^ addBeyond.cfg.w - 1 ∧ addBeyond.cfg.cap ≤ 8) ∧
      (memRead mulBeyond 5 * memRead mulBeyond 6 ≤ 2 ^ mulBeyond.cfg.w - 1 ∧ mulBeyond.cfg.cap ≤ 8) ∧
      addBeyond.fault = none ∧ (advance addBeyond).fault = some (.capacityExceeded 8) := by decide

theorem witness_ArithmeticFrame :
    exec (.add 5 6 7) addMaxFits = .next (advance addMaxFits) ∧
      exec (.mul 5 6 7) mulOverflows = .next (advance mulOverflows) := ⟨rfl, rfl⟩

theorem witness_EveryHaltWordActsAlike :
    haltsNow.cfg.Legal ∧ haltsNow.pc < haltsNow.cfg.cap ∧ haltsNow.status = .running := by decide

theorem witness_StepRunsDecodedInstruction :
    addBeyond.cfg.Legal ∧ addBeyond.status = .running ∧ (Instr.add 5 6 8).wellFormed addBeyond.cfg.w = true ∧
      ∀ k, k < (Instr.add 5 6 8).length →
        memRead addBeyond (addBeyond.pc + k) = (encode (.add 5 6 8)).getD k 0 := by decide

/-- Each of the bounds of R3 at its edge: `W = 25`, `CAP = 2^25 - 4`, and just outside. -/
theorem witness_StepIsTotal :
    Config.Legal { w := 25, cap := 2 ^ 25 - 4 } ∧ Config.Legal { w := 25, cap := 1 } ∧
      ¬ Config.Legal { w := 24, cap := 1 } ∧ ¬ Config.Legal { w := 25, cap := 0 } ∧
      ¬ Config.Legal { w := 25, cap := 2 ^ 25 - 3 } := by decide

theorem witness_StoppedCoreKeepsItsState :
    (isHalted.cfg.Legal ∧ isHalted.status ≠ .running) ∧ isFaulted.cfg.Legal ∧ isFaulted.status ≠ .running := by
  decide

/-- The hypotheses on a step, for each way a step can go: completed, halted, faulted, stopped. -/
theorem witness_step :
    (step addMaxFits = .next (advance addMaxFits) ∧ completes addMaxFits = true) ∧
      (step haltsNow = .next isHalted ∧ completes haltsNow = false ∧ haltsNow.terminated = false) ∧
      (step addBoth = .next (advance addBoth) ∧ completes addBoth = false ∧ addBoth.fault = none ∧
        (advance addBoth).fault ≠ none) ∧
      (step isHalted = .next isHalted ∧ isHalted.terminated = true) :=
  ⟨⟨step_eq_advance (by decide), by decide⟩, ⟨step_eq_advance (by decide), by decide, by decide⟩,
    ⟨step_eq_advance (by decide), by decide, by decide, by decide⟩, ⟨step_eq_advance (by decide), by decide⟩⟩

theorem witness_OverflowWinsOverCapacity :
    addBoth.cfg.Legal ∧ addBoth.status = .running ∧ AtArithmetic addBoth ∧
      2 ^ addBoth.cfg.w - 1 < exactResult addBoth ∧ addBoth.cfg.cap ≤ dstAddress addBoth := by decide

/-- Two states that differ in a cell the ADD does not read, and two that differ in an operand word of a
HALT. -/
theorem witness_StepDependsOnlyOnWordsItReads :
    (let s := addMaxFits; let s' := coreOf 8 [1, 5, 6, 7, 42, maxW, 0, 0] 0
     s.cfg = s'.cfg ∧ s.pc = s'.pc ∧ s.terminated = s'.terminated ∧ s.fault = s'.fault ∧
      memRead s s.pc = memRead s' s.pc ∧ AtArithmetic s ∧
      memRead s 1 = memRead s' 1 ∧ memRead s 2 = memRead s' 2 ∧ memRead s 3 = memRead s' 3 ∧
      memRead s 5 = memRead s' 5 ∧ memRead s 6 = memRead s' 6 ∧ s ≠ s') ∧
    (let s := haltsNow; let s' := coreOf 4 [99, 8, 2, 3] 0
     s.cfg = s'.cfg ∧ s.pc = s'.pc ∧ memRead s s.pc = memRead s' s.pc ∧ ¬ AtArithmetic s ∧ s ≠ s') := by
  decide

theorem witness_StepKeepsInvariant : addMaxFits.Inv ∧ haltsNow.Inv ∧ addBeyond.Inv ∧ isFaulted.Inv := by decide

theorem witness_StepKeepsPcReachable :
    (coreOf 5 [1, 4, 4, 0, 1] 4).PcReachable ∧ (coreOf 5 [1, 4, 4, 0, 1] 8).PcReachable := by decide

theorem witness_NoAddressWraps :
    let s : State := (State.zeroed { w := 25, cap := 2 ^ 25 - 4 }).setMem [(2 ^ 25 - 5, 1)]
    s.cfg.Legal ∧ AtArithmetic (s.setPc (2 ^ 25 - 5)) := by decide

/-- For the statements about a load: V-S1's text, at the bound of R77. -/
theorem witness_load :
    load { w := 64, cap := 12 } (programText [1, 0, 0, 0, 1, 0, 0, 0, 1, 0, 0, 0]) =
      .loaded (coreOf 12 [1, 0, 0, 0, 1, 0, 0, 0, 1, 0, 0, 0] 0) ∧
    AtArithmetic (advance^[2] (coreOf 12 [1, 0, 0, 0, 1, 0, 0, 0, 1, 0, 0, 0] 0)) ∧
    (advance^[3] (coreOf 12 [1, 0, 0, 0, 1, 0, 0, 0, 1, 0, 0, 0] 0)).status = .running ∧
    (advance^[4] (coreOf 12 [1, 0, 0, 0, 1, 0, 0, 0, 1, 0, 0, 0] 0)).status = .halted := by decide

theorem witness_InstructionCountOfARun :
    (haltsNow.cfg.Legal ∧ haltsNow.status = .running ∧ (advance^[1] haltsNow).status = .halted) ∧
      addBoth.cfg.Legal ∧ addBoth.status = .running ∧ (advance^[1] addBoth).status = .faulted := by decide

theorem witness_ProgramTextLoadsBack :
    Config.Legal { w := 64, cap := 2 } ∧ [0, maxW] ≠ [] ∧ [0, maxW].length ≤ 2 ∧
      ∀ v ∈ [0, maxW], IsWord 64 v := by decide

/-- A text for each way a load ends. -/
theorem witness_load_outcomes :
    Config.Legal { w := 64, cap := 1 } ∧ load { w := 64, cap := 1 } ['1'] = .loaded (coreOf 1 [1] 0) ∧
      load { w := 64, cap := 1 } ['1', ','] = .parseError ∧
      load { w := 64, cap := 1 } ['1', ',', '2'] = .loadCapacityExceeded ∧
      fieldValid 64 ['+', '1'] = false := by decide

theorem witness_TrimTakesWhiteSpaceAtTheEnds :
    (trim [' ', '1', '\n']).head? = some '1' ∧ 'x' ∈ trim [' ', 'x'] ∧ 'x'.isDigit = false ∧ 'x' ≠ ',' := by
  decide

theorem witness_PokeOnlyBeforeTheFirstStep :
    (hostStep (openSession haltsNow)).started = true ∧ (openSession isFaulted).core.status ≠ .running ∧
      (openSession haltsNow).started = false ∧ (openSession haltsNow).core.status = .running ∧
      (openSession haltsNow).core.cfg.cap ≤ 4 ∧ 3 < (openSession haltsNow).core.cfg.cap ∧
      IsWord (openSession haltsNow).core.cfg.w maxW := by decide

theorem witness_PokeKeepsInvariant :
    (openSession haltsNow).core.Inv ∧
      poke 3 maxW (openSession haltsNow) = .poked (openSession (coreOf 4 [99, 1, 2, maxW] 0)) := by decide

theorem witness_RunIsRepeatedStep : (openSession addMaxFits).core.cfg.Legal := by decide

theorem witness_ResultIsCellZeroOnceHalted :
    (hostRun (openSession haltsNow)).core.status = .halted ∧ (openSession haltsNow).core.status ≠ .halted := by
  decide

theorem witness_InputsGoToCellsOneAndTwo :
    (openSession (coreOf 3 [99] 0)).started = false ∧ (openSession (coreOf 3 [99] 0)).core.status = .running ∧
      3 ≤ (openSession (coreOf 3 [99] 0)).core.cfg.cap ∧
      IsWord (openSession (coreOf 3 [99] 0)).core.cfg.w 100 := by decide

/-- The search's other ends: the first trial faults, and a template that takes no pokes. -/
theorem witness_SearchReturnsFirstPair :
    search (openSession (coreOf 5 [1, 0, 0, 100, 99] 0)) 3 = .aborted (.capacityExceeded 100) ∧
      search (openSession (coreOf 2 [99] 0)) 3 = .refused (.capacityExceeded 2) := by decide

theorem witness_ParallelSearchIsSequential : searchDomain.reverse.Perm searchDomain :=
  List.reverse_perm _

end Sys2Proof.Tests
end

section
/-! PROOFS. The scope statements (00_scope.md): no address wraps, and every step keeps the invariant. -/

namespace Sys2Proof.Machine

/-! ### Addresses at an ADD or a MUL (R3) -/

/-- An ADD or a MUL is fetched from an existing cell, since every other address reads as 0 (R20). -/
theorem pc_lt_cap_of_atArithmetic {s : State} (h : AtArithmetic s) : s.pc < s.cfg.cap := by
  apply lt_cap_of_memRead_ne_zero
  rcases h with h | h <;> simp [h]

/-- The margin of 4 that R3 leaves above the capacity is what keeps `pc + 4` a word. -/
theorem pc_add_four_lt_of_atArithmetic {s : State} (hl : s.cfg.Legal) (h : AtArithmetic s) :
    s.pc + 4 < 2 ^ s.cfg.w := by
  have hpc := pc_lt_cap_of_atArithmetic h
  have hcap := cap_add_four_le hl
  omega

/-- Settles O38: a fetched ADD or MUL lies below the capacity, which R3 keeps 4 below the word bound. -/
theorem noAddressWraps : Obligations.NoAddressWraps := by
  intro s hl ha
  have hpc := pc_add_four_lt_of_atArithmetic hl ha
  refine ⟨pc_lt_cap_of_atArithmetic ha, by omega, fun k hk => ?_⟩
  show s.pc + k < 2 ^ s.cfg.w
  omega

/-! ### The invariant under one update of the state -/

namespace State

variable {s : State}

theorem Inv.setTerminated (hi : s.Inv) (hf : s.fault = none) (b : Bool) : (s.setTerminated b).Inv := by
  obtain ⟨hl, hm, hc, hpc, hfw, -⟩ := hi
  exact ⟨hl, hm, hc, hpc, hfw, fun hboth => hboth.2 hf⟩

theorem Inv.setFault (hi : s.Inv) (ht : s.terminated = false) {f : Option Fault}
    (hf : faultWellFormed s.cfg f = true) : (s.setFault f).Inv := by
  obtain ⟨hl, hm, hc, hpc, -, -⟩ := hi
  exact ⟨hl, hm, hc, hpc, hf, by simp [ht]⟩

theorem Inv.setPc (hi : s.Inv) {v : Nat} (hv : IsWord s.cfg.w v) : (s.setPc v).Inv := by
  obtain ⟨hl, hm, hc, -, hfw, hstop⟩ := hi
  exact ⟨hl, hm, hc, hv, hfw, hstop⟩

theorem Inv.setMem_write (hi : s.Inv) {a v : Nat} (ha : a < s.cfg.cap) (hv : IsWord s.cfg.w v) :
    (s.setMem (s.mem.write a v)).Inv := by
  obtain ⟨hl, hm, hc, hpc, hfw, hstop⟩ := hi
  exact ⟨hl, Memory.wf_write a v hm, cellsInRange_write ha hv hc, hpc, hfw, hstop⟩

/-- The destination a raise records was read from a cell, so it is a word. -/
theorem Inv.isWord_dstAddress (hi : s.Inv) : IsWord s.cfg.w (dstAddress s) := by
  obtain ⟨-, -, hc, -⟩ := hi
  exact memRead_lt hc _

end State

/-! ### The invariant under a step -/

/-- Settles O36: each way a step can end is one or two updates that keep the invariant. -/
theorem stepKeepsInvariant : Obligations.StepKeepsInvariant := by
  intro s t hi hstep
  obtain ⟨hl, ⟨-, rfl⟩ | ⟨hrun, hcases⟩⟩ := step_cases hstep
  · exact hi
  obtain ⟨hf, ht⟩ := (State.status_running_iff s).1 hrun
  rcases hcases with ⟨-, rfl⟩ | ⟨ha, ⟨-, rfl⟩ | ⟨-, hd, rfl⟩ | ⟨hr, hd, rfl⟩⟩
  · -- HALT
    exact hi.setTerminated hf true
  · -- overflow
    exact hi.setFault ht rfl
  · -- a destination beyond capacity
    exact hi.setFault ht ((faultWellFormed_capacityExceeded _ _).2 ⟨hd, hi.isWord_dstAddress⟩)
  · -- a completed ADD or MUL
    exact (hi.setMem_write hd hr).setPc (pc_add_four_lt_of_atArithmetic hl ha)

end Sys2Proof.Machine
end

section
/-! PROOFS. The state statements (10_state.md): the terminated flag, and the reset state. -/

namespace Sys2Proof.Machine

/-! ### The terminated flag (R13) -/

/-- A step of a stopped core changes nothing (R75). -/
theorem eq_of_step_of_stopped {s t : State} (hstop : s.status ≠ .running) (hstep : step s = .next t) :
    t = s := by
  obtain ⟨-, ⟨-, rfl⟩ | ⟨hrun, -⟩⟩ := step_cases hstep
  · rfl
  · exact absurd hrun hstop

theorem State.status_ne_running_of_terminated {s : State} (ht : s.terminated = true) :
    s.status ≠ .running := by
  simp [State.status_running_iff, ht]

/-- A Running core is terminated after a step exactly if the step is a HALT. -/
theorem step_terminated_iff_of_running {s t : State} (hrun : s.status = .running)
    (hstep : step s = .next t) : t.terminated = true ↔ ¬ AtArithmetic s := by
  obtain ⟨-, ht⟩ := (State.status_running_iff s).1 hrun
  obtain ⟨-, ⟨hstop, -⟩ | ⟨-, ⟨hna, rfl⟩ | ⟨ha, ⟨-, rfl⟩ | ⟨-, -, rfl⟩ | ⟨-, -, rfl⟩⟩⟩⟩ :=
    step_cases hstep
  · exact absurd hrun hstop
  · -- HALT
    exact iff_of_true (State.setTerminated_terminated s true) hna
  -- an ADD or a MUL, whichever way it ends, leaves the flag as it was
  all_goals exact iff_of_false (by simp [ht]) (not_not_intro ha)

/-- Settles O27: a stopped core keeps its whole state, and a Running one sets the flag exactly at a HALT. -/
theorem terminatedIsSetOnlyByHalt : Obligations.TerminatedIsSetOnlyByHalt := by
  refine ⟨fun s t hstep => ⟨fun ht => ?_, fun ht => ?_⟩, rfl⟩
  · by_cases hrun : s.status = .running
    · simp [hrun, step_terminated_iff_of_running hrun hstep]
    · -- a Faulted core
      obtain rfl := eq_of_step_of_stopped hrun hstep
      simp [hrun, ht]
  · obtain rfl := eq_of_step_of_stopped (State.status_ne_running_of_terminated ht) hstep
    exact ⟨ht, rfl⟩

/-! ### The reset state -/

@[simp] theorem State.zeroed_status (c : Config) : (State.zeroed c).status = .running := rfl

@[simp] theorem memRead_zeroed (c : Config) (a : Nat) : memRead (State.zeroed c) a = 0 := by
  rcases lt_or_ge a c.cap with h | h
  · exact memRead_of_lt h
  · exact memRead_of_ge h

/-- The one-field text "0" is valid at every width. -/
theorem fieldValid_zero (w : Nat) : fieldValid w ['0'] = true := by
  simp [fieldValid, decimalValue, Char.isDigit]

/-- In every legal configuration the load of "0" is the state with every cell 0 (R117, R118). -/
theorem load_zero {c : Config} (h : c.Legal) : load c ['0'] = .loaded (State.zeroed c) := by
  have hfields : programFields ['0'] = [['0']] := by decide
  have hcount : [['0']].length ≤ c.cap := h.2.1
  have hstate : initialState c ([['0']].map decimalValue) = State.zeroed c := rfl
  rw [load, hfields, if_neg (not_not_intro h), if_pos (by simp [fieldValid_zero]), if_pos hcount, hstate]

theorem legal_reference : Config.reference.Legal := by decide

/-- Settles O33: `State.reset` is the all-zero state of the reference configuration, which is legal. -/
theorem resetState : Obligations.ResetState :=
  ⟨rfl, rfl, rfl, State.zeroed_status _, memRead_zeroed _, load_zero legal_reference⟩

end Sys2Proof.Machine
end

section
/-! PROOFS. The memory statements (20_memory.md): the access primitives, what a step does to the cells, and what
a step depends on. -/

namespace Sys2Proof.Machine

/-! ### Reads and writes (R20, R22, R30) -/

/-- Settles O7: the two cases of R20. -/
theorem readBeyondCapacityIsZero : Obligations.ReadBeyondCapacityIsZero :=
  fun _ _ => ⟨memRead_of_lt, memRead_of_ge⟩

theorem memWrite_of_lt {s : State} {a : Nat} (h : a < s.cfg.cap) (v : Nat) :
    memWrite a v s = .ok (s.setMem (s.mem.write a v)) :=
  if_pos h

theorem memWrite_of_ge {s : State} {a : Nat} (h : s.cfg.cap ≤ a) (v : Nat) :
    memWrite a v s = .error (.capacityExceeded a) :=
  if_neg (Nat.not_lt.2 h)

/-- A write lands exactly below capacity. -/
theorem memWrite_eq_ok_iff {a v : Nat} {s t : State} :
    memWrite a v s = .ok t ↔ a < s.cfg.cap ∧ t = s.setMem (s.mem.write a v) := by
  rcases lt_or_ge a s.cfg.cap with h | h
  · simp [memWrite_of_lt h, h, eq_comm]
  · simp [memWrite_of_ge h, h]

/-- Settles O8: a write that lands replaces one cell; one beyond capacity gives no state. -/
theorem writeStoresOrRaises : Obligations.WriteStoresOrRaises := by
  refine fun s a v => ⟨fun ha => ?_, fun ha => memWrite_of_ge ha v⟩
  have hread := memRead_setMem_write s ha v
  exact ⟨_, memWrite_of_lt ha v, by rw [hread, if_pos rfl], fun b hb => by rw [hread, if_neg hb],
    rfl, rfl, rfl, rfl⟩

/-- Settles O9, by induction on the writes: the first of them is the content before the sequence of the others, and
the last one a search that begins with the most recent write comes to. -/
theorem readReturnsMostRecentWrite : Obligations.ReadReturnsMostRecentWrite := by
  intro writes s t a hrun
  induction writes generalizing s with
  | nil =>
    obtain rfl : s = t := Except.ok.inj hrun
    rcases lt_or_ge a s.cfg.cap with ha | ha
    · simp [ha]
    · simp [memRead_of_ge ha]
  | cons p ps ih =>
    obtain ⟨b, v⟩ := p
    rw [List.foldlM_cons] at hrun
    rcases memWrite_cases b v s with ⟨hb, hw⟩ | ⟨-, hw⟩ <;> rw [hw] at hrun
    · rw [ih (s.setMem (s.mem.write b v)) hrun, memRead_setMem_write s hb, List.reverse_cons,
        List.find?_append]
      by_cases hab : b = a
      · cases ps.reverse.find? (fun q => decide (q.1 = a)) <;> simp [hab]
      · simp [hab, Ne.symm hab]
    · cases hrun

/-! ### The cells after a step (R31, R34) -/

/-- A step that completes an ADD or a MUL writes the destination and advances `pc`. -/
theorem eq_of_step_of_completes {s t : State} (hstep : step s = .next t) (hc : completes s = true) :
    t = (s.setMem (s.mem.write (dstAddress s) (exactResult s))).setPc (s.pc + 4) := by
  obtain ⟨hrun, ha, hr, hd⟩ := (completes_iff s).1 hc
  obtain ⟨-, ⟨hstop, -⟩ | ⟨-, ⟨hna, -⟩ | ⟨-, ⟨hover, -⟩ | ⟨-, hbeyond, -⟩ | ⟨-, -, ht⟩⟩⟩⟩ :=
    step_cases hstep
  · exact absurd hrun hstop
  · exact absurd ha hna
  · exact absurd hr (Nat.not_lt.2 hover)
  · exact absurd hd (Nat.not_lt.2 hbeyond)
  · exact ht

/-- Every other step leaves the memory and `pc` as they were. -/
theorem mem_pc_of_step_of_not_completes {s t : State} (hstep : step s = .next t)
    (hc : completes s ≠ true) : t.mem = s.mem ∧ t.pc = s.pc := by
  obtain ⟨-, ⟨-, rfl⟩ | ⟨hrun, ⟨-, rfl⟩ | ⟨ha, ⟨-, rfl⟩ | ⟨-, -, rfl⟩ | ⟨hr, hd, -⟩⟩⟩⟩ :=
    step_cases hstep
  -- a stopped core, a HALT and the two raises
  iterate 4 exact ⟨rfl, rfl⟩
  · exact absurd ((completes_iff s).2 ⟨hrun, ha, hr, hd⟩) hc

/-- Settles O26: a completed ADD or MUL is one write, and every other step keeps the memory. -/
theorem cellsChangeOnlyByCompletedWrites : Obligations.CellsChangeOnlyByCompletedWrites := by
  intro s t hstep x
  by_cases hc : completes s = true
  · obtain ⟨-, -, -, hd⟩ := (completes_iff s).1 hc
    simp [eq_of_step_of_completes hstep hc, memRead_setMem_write s hd, hc]
  · obtain ⟨hmem, -⟩ := mem_pc_of_step_of_not_completes hstep hc
    simp [memRead_congr (step_cfg hstep) hmem, hc]

/-- Settles O31: the next fetch decodes at `pc + 4` what O26 says the cells read as. -/
theorem nextFetchSeesTheWrite : Obligations.NextFetchSeesTheWrite := by
  intro s t hstep hc
  have hpc : t.pc = s.pc + 4 := by rw [eq_of_step_of_completes hstep hc, State.setPc_pc]
  have hread : memRead t = fun x => if x = dstAddress s then exactResult s else memRead s x := by
    funext x
    simp [cellsChangeOnlyByCompletedWrites s t hstep x, hc]
  rw [fetch, hread, hpc]

/-! ### What a step depends on (R21, R31) -/

/-- What a step of a Running core answers: the result of an ADD or a MUL, or a HALT. -/
theorem eq_of_step_of_running {s t : State} (hstep : step s = .next t) (hrun : s.status = .running) :
    t = if AtArithmetic s then writeResult (exactResult s) (dstAddress s) s else s.setTerminated true := by
  obtain ⟨hl, -⟩ := step_cases hstep
  rw [step, if_pos hl, if_pos hrun, exec_fetch] at hstep
  exact (Host.Outcome.next.inj hstep).symm

/-- Two states that agree on everything but their memories. -/
structure SameControl (s s' : State) : Prop where
  cfg : s.cfg = s'.cfg
  pc : s.pc = s'.pc
  terminated : s.terminated = s'.terminated
  fault : s.fault = s'.fault

namespace SameControl

variable {s s' : State}

theorem status_eq (h : SameControl s s') : s.status = s'.status := by
  rw [State.status, h.fault, h.terminated, ← State.status]

theorem setFault (h : SameControl s s') (f : Option Fault) : SameControl (s.setFault f) (s'.setFault f) :=
  ⟨h.cfg, h.pc, h.terminated, rfl⟩

theorem setTerminated (h : SameControl s s') (b : Bool) :
    SameControl (s.setTerminated b) (s'.setTerminated b) :=
  ⟨h.cfg, h.pc, rfl, h.fault⟩

/-- Whether ADD and MUL write one and the same result or raise does not depend on the memory. -/
theorem writeResult (h : SameControl s s') (r dst : Nat) :
    SameControl (writeResult r dst s) (writeResult r dst s') := by
  rw [Machine.writeResult, Machine.writeResult, ← h.cfg]
  cases overflows s.cfg r with
  | true => exact h.setFault _
  | false =>
    rcases lt_or_ge dst s.cfg.cap with hd | hd
    · simp only [memWrite_of_lt hd, memWrite_of_lt (h.cfg ▸ hd)]
      exact ⟨h.cfg, congrArg (· + 4) h.pc, h.terminated, h.fault⟩
    · simp only [memWrite_of_ge hd, memWrite_of_ge (h.cfg ▸ hd)]
      exact h.setFault _

end SameControl

/-- Two states that agree on their control fields and on every word that a step reads: the opcode word and, at
an ADD or a MUL, the operand words and the words at the two source addresses. -/
structure SameReads (s s' : State) : Prop extends SameControl s s' where
  opcode : opcodeWord s = opcodeWord s'
  operand : AtArithmetic s → ∀ k, 1 ≤ k → k ≤ 3 → memRead s (s.pc + k) = memRead s' (s.pc + k)
  source : AtArithmetic s → ∀ k, 1 ≤ k → k ≤ 2 →
    memRead s (memRead s (s.pc + k)) = memRead s' (memRead s (s.pc + k))

namespace SameReads

variable {s s' : State}

theorem atArithmetic_iff (h : SameReads s s') : AtArithmetic s ↔ AtArithmetic s' := by
  rw [AtArithmetic, h.opcode]

theorem dstAddress_eq (h : SameReads s s') (ha : AtArithmetic s) : dstAddress s = dstAddress s' := by
  rw [dstAddress, h.operand ha 3 (by decide) (by decide), h.pc]

/-- The word at a source address, the address itself being read from memory. -/
theorem source_eq (h : SameReads s s') (ha : AtArithmetic s) {k : Nat} (h1 : 1 ≤ k) (h2 : k ≤ 2) :
    memRead s (memRead s (s.pc + k)) = memRead s' (memRead s' (s'.pc + k)) := by
  rw [h.source ha k h1 h2, h.operand ha k h1 (by omega), h.pc]

theorem exactResult_eq (h : SameReads s s') (ha : AtArithmetic s) : exactResult s = exactResult s' := by
  rw [exactResult, h.opcode, h.source_eq ha (by decide) (by decide), h.source_eq ha (by decide) (by decide),
    ← exactResult]

theorem completes_iff_completes (h : SameReads s s') : completes s = true ↔ completes s' = true := by
  rw [completes_iff, completes_iff, h.status_eq, ← h.atArithmetic_iff, h.cfg]
  refine and_congr_right fun _ => and_congr_right fun ha => ?_
  rw [h.exactResult_eq ha, h.dstAddress_eq ha]

/-- Steps that read the same words go the same way. -/
theorem sameControl_step (h : SameReads s s') {t t' : State} (hstep : step s = .next t)
    (hstep' : step s' = .next t') : SameControl t t' := by
  by_cases hrun : s.status = .running
  · rw [eq_of_step_of_running hstep hrun, eq_of_step_of_running hstep' (h.status_eq ▸ hrun)]
    by_cases ha : AtArithmetic s
    · rw [if_pos ha, if_pos (h.atArithmetic_iff.1 ha), ← h.exactResult_eq ha, ← h.dstAddress_eq ha]
      exact h.writeResult _ _
    · rw [if_neg ha, if_neg (ha ∘ h.atArithmetic_iff.2)]
      exact h.setTerminated true
  · obtain rfl := eq_of_step_of_stopped hrun hstep
    obtain rfl := eq_of_step_of_stopped (h.status_eq ▸ hrun) hstep'
    exact h.toSameControl

/-- A cell reads alike after the two steps if they both write it or if it read alike before. -/
theorem memRead_step_eq (h : SameReads s s') {t t' : State} (hstep : step s = .next t)
    (hstep' : step s' = .next t') {x : Nat}
    (hx : (completes s = true ∧ x = dstAddress s) ∨ memRead s x = memRead s' x) :
    memRead t x = memRead t' x := by
  rw [cellsChangeOnlyByCompletedWrites s t hstep, cellsChangeOnlyByCompletedWrites s' t' hstep']
  by_cases hc : completes s = true
  · obtain ⟨-, ha, -⟩ := (completes_iff s).1 hc
    rw [← h.dstAddress_eq ha, ← h.exactResult_eq ha]
    by_cases hd : x = dstAddress s
    · simp [hc, h.completes_iff_completes.1 hc, hd]
    · simpa [hd] using hx
  · simpa [hc, mt h.completes_iff_completes.2 hc] using hx

end SameReads

/-- Settles O32: the two steps go the same way, and O26 gives what each cell reads as after them. -/
theorem stepDependsOnlyOnWordsItReads : Obligations.StepDependsOnlyOnWordsItReads := by
  intro s s' t t' hstep hstep' hcfg hpc hterm hfault hop hoperand hsource
  have h : SameReads s s' :=
    { cfg := hcfg, pc := hpc, terminated := hterm, fault := hfault, operand := hoperand, source := hsource,
      opcode := by rw [opcodeWord, hop, hpc] }
  obtain ⟨-, hpc', hterm', hfault'⟩ := h.sameControl_step hstep hstep'
  exact ⟨hpc', hterm', hfault', fun hc => h.memRead_step_eq hstep hstep' (.inl ⟨hc, rfl⟩),
    fun x hx => h.memRead_step_eq hstep hstep' (.inr hx)⟩

end Sys2Proof.Machine
end

section
/-! PROOFS. The encoding statements (30_encoding.md): decoding and encoding undo each other, every opcode word but 1
and 2 acts alike, and a disassembled line reads back. -/

namespace Sys2Proof

/-! ### Well-formed instructions (R42, R45) -/

@[simp] theorem Instr.wellFormed_add_iff (w a b d : Nat) :
    (Instr.add a b d).wellFormed w = true ↔ IsWord w a ∧ IsWord w b ∧ IsWord w d := by
  simp [Instr.wellFormed, and_assoc]

@[simp] theorem Instr.wellFormed_mul_iff (w a b d : Nat) :
    (Instr.mul a b d).wellFormed w = true ↔ IsWord w a ∧ IsWord w b ∧ IsWord w d := by
  simp [Instr.wellFormed, and_assoc]

@[simp] theorem Instr.wellFormed_halt_iff (w op : Nat) :
    (Instr.halt op).wellFormed w = true ↔ IsWord w op ∧ op ≠ 1 ∧ op ≠ 2 := by
  simp [Instr.wellFormed, and_assoc]

@[simp] theorem encode_length (i : Instr) : (encode i).length = i.length := by
  cases i <;> rfl

/-! ### Decoding and encoding (R41 to R46) -/

/-- Decoding looks at the words of the instruction alone, so where these stand it gives the instruction. -/
theorem decodeAt_of_reads_encode {w : Nat} {i : Instr} (hi : i.wellFormed w = true) {read : Nat → Nat} {a : Nat}
    (hread : ∀ k, k < i.length → read (a + k) = (encode i).getD k 0) : decodeAt read a = i := by
  cases i with
  | add src1 src2 dst =>
    have hword (k : Nat) (hk : k < 4) : read (a + k) = [1, src1, src2, dst].getD k 0 := hread k hk
    rw [decodeAt_of_one (a := a) (hword 0 (by decide)), hword 1 (by decide), hword 2 (by decide), hword 3 (by decide)]
    rfl
  | mul src1 src2 dst =>
    have hword (k : Nat) (hk : k < 4) : read (a + k) = [2, src1, src2, dst].getD k 0 := hread k hk
    rw [decodeAt_of_two (a := a) (hword 0 (by decide)), hword 1 (by decide), hword 2 (by decide), hword 3 (by decide)]
    rfl
  | halt op =>
    have hop : read a = op := hread 0 Nat.one_pos
    obtain ⟨-, h1, h2⟩ := (Instr.wellFormed_halt_iff w op).1 hi
    rw [decodeAt_of_other (hop ▸ h1) (hop ▸ h2), hop]

theorem decode_encode_append {w : Nat} {i : Instr} (hi : i.wellFormed w = true) (rest : List Nat) :
    decode (encode i ++ rest) = i := by
  refine decodeAt_of_reads_encode hi fun k hk => ?_
  rw [Nat.zero_add, List.getD_append _ _ _ _ (by simpa using hk)]

/-- Where every read gives a word, decoding gives a well-formed instruction. -/
theorem wellFormed_decodeAt {w : Nat} {read : Nat → Nat} (hread : ∀ a, IsWord w (read a)) (a : Nat) :
    (decodeAt read a).wellFormed w = true := by
  by_cases h1 : read a = 1
  · rw [decodeAt_of_one h1, Instr.wellFormed_add_iff]
    exact ⟨hread _, hread _, hread _⟩
  by_cases h2 : read a = 2
  · rw [decodeAt_of_two h2, Instr.wellFormed_mul_iff]
    exact ⟨hread _, hread _, hread _⟩
  · rw [decodeAt_of_other h1 h2, Instr.wellFormed_halt_iff]
    exact ⟨hread _, h1, h2⟩

/-- Encoding gives back the words that decoding read, as many as R46 says. -/
theorem encode_decodeAt (read : Nat → Nat) (a : Nat) :
    encode (decodeAt read a) = (List.range (lengthOfOpcode (read a))).map (fun k => read (a + k)) := by
  by_cases h1 : read a = 1
  · simp [decodeAt_of_one h1, encode, lengthOfOpcode, h1, List.range_succ]
  by_cases h2 : read a = 2
  · simp [decodeAt_of_two h2, encode, lengthOfOpcode, h2, List.range_succ]
  · simp [decodeAt_of_other h1 h2, encode, lengthOfOpcode, h1, h2, List.range_succ]

/-- Settles O1: the first word selects the case of decoding. -/
theorem tableWordsDecode : Obligations.TableWordsDecode :=
  ⟨decodeAt_of_one rfl, decodeAt_of_two rfl, decodeAt_of_other (by decide) (by decide),
    decodeAt_of_other (by decide) (by decide), decodeAt_of_other (by decide) (by decide),
    decodeAt_of_other (by decide) (by decide)⟩

end Sys2Proof

namespace Sys2Proof.Machine

/-! ### Decoding from the memory of a state -/

/-- Settles O3: the placed words read back, and a following word is not looked at. -/
theorem placedEncodingDecodesToInstruction : Obligations.PlacedEncodingDecodesToInstruction := by
  refine fun s i a _ hi hfit => ⟨decodeAt_of_reads_encode hi fun k hk => ?_, decode_encode_append hi⟩
  rw [memRead_placeWords, encode_length, if_pos (by omega), Nat.add_sub_cancel_left]

/-- Settles O4: every read of a well-formed state gives a word. -/
theorem decodedInstructionEncodesToItsWords : Obligations.DecodedInstructionEncodesToItsWords := by
  intro s a hi
  obtain ⟨-, -, hcells, -⟩ := hi
  exact ⟨wellFormed_decodeAt (memRead_lt hcells) a, encode_decodeAt _ a⟩

/-- Settles O2: the three cases of R43, the last of them also at an address beyond capacity, which reads as 0. -/
theorem decodeComparesWholeOpcodeWord : Obligations.DecodeComparesWholeOpcodeWord := by
  refine fun s a => ⟨decodeAt_of_one, decodeAt_of_two, decodeAt_of_other, fun ha => ?_⟩
  have hzero : memRead s a = 0 := memRead_of_ge ha
  rw [decodeAt_of_other (by simp [hzero]) (by simp [hzero]), hzero]

/-! ### A HALT as one step (R48, R71) -/

/-- A Running core with any opcode word but 1 and 2 at `pc` halts. -/
theorem step_of_not_atArithmetic {s : State} (hl : s.cfg.Legal) (hrun : s.status = .running)
    (hna : ¬ AtArithmetic s) : step s = .next (s.setTerminated true) := by
  rw [step, if_pos hl, if_pos hrun, exec_fetch, if_neg hna]

/-- Settles O20: the opcode word read is the one stored, and the effect of a HALT does not mention it. -/
theorem everyHaltWordActsAlike : Obligations.EveryHaltWordActsAlike := by
  intro s op h1 h2 hl hpc hrun
  have hop : opcodeWord (s.setMem (s.mem.write s.pc op)) = op := by
    rw [opcodeWord, memRead_setMem_write s hpc]
    exact if_pos rfl
  exact step_of_not_atArithmetic hl hrun (by simp [AtArithmetic, hop, h1, h2])

/-! ### Decimal words (R50, R114) -/

theorem decimal_ne_nil (v : Nat) : decimal v ≠ [] := Nat.toDigits_ne_nil

theorem isDigit_of_mem_decimal {v : Nat} {c : Char} (h : c ∈ decimal v) : c.isDigit = true :=
  Nat.isDigit_of_mem_toDigits (by decide) (by decide) h

@[simp] theorem decimalValue_decimal (v : Nat) : decimalValue (decimal v) = v := by
  rw [decimalValue, decimal]
  exact Nat.ofDigitChars_eq_foldl.symm.trans Nat.ofDigitChars_ten_toDigits

theorem fieldValid_decimal {w v : Nat} (hv : IsWord w v) : fieldValid w (decimal v) = true := by
  have hdigits : (decimal v).all Char.isDigit = true := List.all_eq_true.2 fun _ => isDigit_of_mem_decimal
  have hmax : v ≤ maxWord w := (le_maxWord_iff w v).2 hv
  simp [fieldValid, decimal_ne_nil, hdigits, hmax]

theorem ne_of_isDigit {c d : Char} (hc : c.isDigit = true) (hd : d.isDigit = false) : c ≠ d := by
  rintro rfl
  simp [hc] at hd

theorem isSpace_of_isDigit {c : Char} (hc : c.isDigit = true) : isSpace c = false := by
  have hne {d : Char} (hd : d.isDigit = false) : c ≠ d := ne_of_isDigit hc hd
  simp [isSpace, hne]

theorem isSpace_of_mem_decimal {v : Nat} {c : Char} (h : c ∈ decimal v) : isSpace c = false :=
  isSpace_of_isDigit (isDigit_of_mem_decimal h)

theorem notMem_decimal {c : Char} (hc : c.isDigit = false) (v : Nat) : c ∉ decimal v :=
  fun h => ne_of_isDigit (isDigit_of_mem_decimal h) hc rfl

/-! ### Trimming and splitting (R112, R113) -/

theorem dropWhile_isSpace_eq_self {text : List Char} (h : ∀ c, text.head? = some c → isSpace c = false) :
    text.dropWhile isSpace = text := by
  cases text with
  | nil => rfl
  | cons c cs => exact List.dropWhile_cons_of_neg (by simp [h c rfl])

/-- A text with non-empty pieces at its two ends that hold no white space stays as it is. -/
theorem trim_eq_self {first last text : List Char} (hfirst : first <+: text) (hlast : last <:+ text)
    (hfirst_ne : first ≠ []) (hlast_ne : last ≠ []) (hfirst_mem : ∀ c ∈ first, isSpace c = false)
    (hlast_mem : ∀ c ∈ last, isSpace c = false) : trim text = text := by
  have hhead : text.dropWhile isSpace = text := by
    obtain ⟨after, rfl⟩ := hfirst
    refine dropWhile_isSpace_eq_self fun c hc => hfirst_mem c (List.mem_of_head? ?_)
    rwa [List.head?_append_of_ne_nil _ hfirst_ne] at hc
  have hend : text.reverse.dropWhile isSpace = text.reverse := by
    obtain ⟨before, rfl⟩ := hlast
    refine dropWhile_isSpace_eq_self fun c hc => hlast_mem c (List.mem_of_getLast? ?_)
    rwa [List.head?_reverse, List.getLast?_append_of_ne_nil _ hlast_ne] at hc
  rw [trim, hhead, hend, List.reverse_reverse]

theorem trim_cons_of_isSpace {c : Char} (hc : isSpace c = true) (text : List Char) :
    trim (c :: text) = trim text := by
  rw [trim, List.dropWhile_cons_of_pos hc, ← trim]

theorem trim_decimal (v : Nat) : trim (decimal v) = decimal v :=
  trim_eq_self List.prefix_rfl List.suffix_rfl (decimal_ne_nil v) (decimal_ne_nil v)
    (fun _ => isSpace_of_mem_decimal) (fun _ => isSpace_of_mem_decimal)

theorem trim_space_decimal (v : Nat) : trim (' ' :: decimal v) = decimal v := by
  rw [trim_cons_of_isSpace rfl, trim_decimal]

theorem splitAtChar_of_notMem {sep : Char} {f : List Char} (hf : sep ∉ f) : splitAtChar sep f = [f] := by
  induction f with
  | nil => rfl
  | cons c cs ih =>
    obtain ⟨hc, hcs⟩ := not_or.1 (mt List.mem_cons.2 hf)
    rw [splitAtChar, if_neg (Ne.symm hc), ih hcs]

/-- The first separator ends the first field. -/
theorem splitAtChar_append_cons {sep : Char} {f : List Char} (hf : sep ∉ f) (text : List Char) :
    splitAtChar sep (f ++ sep :: text) = f :: splitAtChar sep text := by
  induction f with
  | nil => simp [splitAtChar]
  | cons c cs ih =>
    obtain ⟨hc, hcs⟩ := not_or.1 (mt List.mem_cons.2 hf)
    rw [List.cons_append, splitAtChar, if_neg (Ne.symm hc), ih hcs]

/-! ### A disassembled line (R50, R51) -/

/-- The name of a statement ends at the first space. -/
theorem takeWhile_name {name : List Char} (hname : ∀ c ∈ name, isSpace c = false) (rest : List Char) :
    (name ++ ' ' :: rest).takeWhile (fun c => !isSpace c) = name := by
  have hspace : isSpace ' ' = true := rfl
  rw [List.takeWhile_append_of_pos (by simpa using hname)]
  simp [hspace]

theorem dropWhile_name {name : List Char} (hname : ∀ c ∈ name, isSpace c = false) (rest : List Char) :
    (name ++ ' ' :: rest).dropWhile (fun c => !isSpace c) = ' ' :: rest := by
  have hspace : isSpace ' ' = true := rfl
  rw [List.dropWhile_append_of_pos (by simpa using hname)]
  simp [hspace]

/-- What `disassembleOperands` prints after its first space. -/
def operandText (src1 src2 dst : Nat) : List Char :=
  decimal src1 ++ ',' :: ' ' :: decimal src2 ++ ',' :: ' ' :: decimal dst

section OperandText

variable (src1 src2 dst : Nat)

theorem disassembleOperands_eq : disassembleOperands src1 src2 dst = ' ' :: operandText src1 src2 dst := rfl

theorem decimal_prefix_operandText : decimal src1 <+: operandText src1 src2 dst :=
  ⟨',' :: ' ' :: decimal src2 ++ ',' :: ' ' :: decimal dst, by simp [operandText]⟩

theorem decimal_suffix_operandText : decimal dst <:+ operandText src1 src2 dst :=
  ⟨decimal src1 ++ ',' :: ' ' :: decimal src2 ++ [',', ' '], by simp [operandText]⟩

theorem semicolon_notMem_operandText : ';' ∉ operandText src1 src2 dst := by
  have hdecimal := notMem_decimal (c := ';') (by decide)
  simp [operandText, hdecimal]

theorem trim_operandText : trim (operandText src1 src2 dst) = operandText src1 src2 dst :=
  trim_eq_self (decimal_prefix_operandText _ _ _) (decimal_suffix_operandText _ _ _) (decimal_ne_nil _)
    (decimal_ne_nil _) (fun _ => isSpace_of_mem_decimal) (fun _ => isSpace_of_mem_decimal)

theorem splitAtChar_operandText :
    splitAtChar ',' (operandText src1 src2 dst) = [decimal src1, ' ' :: decimal src2, ' ' :: decimal dst] := by
  have hdecimal := notMem_decimal (c := ',') (by decide)
  have hspace (v : Nat) : ',' ∉ ' ' :: decimal v := by simp [hdecimal]
  rw [operandText, List.append_assoc, List.cons_append, splitAtChar_append_cons (hdecimal _),
    splitAtChar_append_cons (hspace _), splitAtChar_of_notMem (hspace _)]

theorem asmOperands_operandText {w : Nat} (h1 : IsWord w src1) (h2 : IsWord w src2) (hd : IsWord w dst) :
    asmOperands w (operandText src1 src2 dst) = some [src1, src2, dst] := by
  simp [asmOperands, splitAtChar_operandText, trim_decimal, trim_space_decimal, fieldValid_decimal, h1, h2, hd]

/-- A line of a name and operands is read as the statement of that name and those operands. -/
theorem asmLine_name_operands (w : Nat) {name : List Char} (hne : name ≠ [])
    (hname : ∀ c ∈ name, isSpace c = false) (hcomment : ';' ∉ name) :
    asmLine w (name ++ disassembleOperands src1 src2 dst) =
      (asmStatement w name (operandText src1 src2 dst)).map (fun st => [st]) := by
  rw [disassembleOperands_eq]
  have hnone : ';' ∉ name ++ ' ' :: operandText src1 src2 dst := by
    simp [hcomment, semicolon_notMem_operandText]
  have hcode : (name ++ ' ' :: operandText src1 src2 dst).takeWhile (fun c => decide (c ≠ ';')) =
      name ++ ' ' :: operandText src1 src2 dst :=
    List.takeWhile_eq_self_iff.2 fun c hc => decide_eq_true (ne_of_mem_of_not_mem hc hnone)
  have htrim : trim (name ++ ' ' :: operandText src1 src2 dst) = name ++ ' ' :: operandText src1 src2 dst :=
    trim_eq_self (List.prefix_append _ _)
      ((decimal_suffix_operandText src1 src2 dst).trans ((List.suffix_cons _ _).trans (List.suffix_append _ _)))
      hne (decimal_ne_nil _) hname (fun _ => isSpace_of_mem_decimal)
  simp only [asmLine, hcode, htrim]
  rw [if_neg (by simp), takeWhile_name hname, dropWhile_name hname, trim_cons_of_isSpace rfl,
    trim_operandText]

end OperandText

theorem asmLine_disassemble_add {w src1 src2 dst : Nat} (h1 : IsWord w src1) (h2 : IsWord w src2)
    (hd : IsWord w dst) : asmLine w (disassemble (.add src1 src2 dst)) = some [.add src1 src2 dst] := by
  have hline := asmLine_name_operands src1 src2 dst w (name := ['A', 'D', 'D']) (by decide)
    (by simp [isSpace]) (by decide)
  exact hline.trans (by simp [asmStatement, asmOperands_operandText _ _ _ h1 h2 hd])

theorem asmLine_disassemble_mul {w src1 src2 dst : Nat} (h1 : IsWord w src1) (h2 : IsWord w src2)
    (hd : IsWord w dst) : asmLine w (disassemble (.mul src1 src2 dst)) = some [.mul src1 src2 dst] := by
  have hline := asmLine_name_operands src1 src2 dst w (name := ['M', 'U', 'L']) (by decide)
    (by simp [isSpace]) (by decide)
  exact hline.trans (by simp [asmStatement, asmOperands_operandText _ _ _ h1 h2 hd])

/-- The comment that shows the opcode word of a HALT is not read. -/
theorem asmLine_disassemble_halt (w op : Nat) : asmLine w (disassemble (.halt op)) = some [.halt] := by
  rw [disassemble]
  split
  · rfl
  · rfl

/-- Settles O6: each line reads back as the statement of its instruction, a HALT's comment being lost. -/
theorem disassemblyReadsBack : Obligations.DisassemblyReadsBack := by
  intro w i _ hi
  cases i with
  | add src1 src2 dst =>
    obtain ⟨h1, h2, hd⟩ := (Instr.wellFormed_add_iff w src1 src2 dst).1 hi
    exact ⟨_, asmLine_disassemble_add h1 h2 hd, rfl⟩
  | mul src1 src2 dst =>
    obtain ⟨h1, h2, hd⟩ := (Instr.wellFormed_mul_iff w src1 src2 dst).1 hi
    exact ⟨_, asmLine_disassemble_mul h1 h2 hd, rfl⟩
  | halt op => exact ⟨_, asmLine_disassemble_halt w op, rfl⟩

end Sys2Proof.Machine
end

section
/-! PROOFS. The arithmetic statements (40_arithmetic.md): the three ends of an ADD or a MUL, their frame, and
the two instructions as one step. -/

namespace Sys2Proof.Machine

/-! ### The three ends of an exact result (R61 to R63) -/

theorem writeResult_of_overflow {s : State} {r : Nat} (hr : 2 ^ s.cfg.w - 1 < r) (dst : Nat) :
    writeResult r dst s = s.setFault (some .arithmeticOverflow) := by
  rcases writeResult_cases r dst s with ⟨-, h⟩ | ⟨hfit, -⟩ | ⟨hfit, -⟩
  · exact h
  all_goals omega

theorem writeResult_of_beyond {s : State} {r dst : Nat} (hr : r ≤ 2 ^ s.cfg.w - 1) (hd : s.cfg.cap ≤ dst) :
    writeResult r dst s = s.setFault (some (.capacityExceeded dst)) := by
  have hfit : r < 2 ^ s.cfg.w := (le_maxWord_iff _ _).1 hr
  rcases writeResult_cases r dst s with ⟨hover, -⟩ | ⟨-, -, h⟩ | ⟨-, hlt, -⟩
  · omega
  · exact h
  · omega

theorem writeResult_of_fits {s : State} {r dst : Nat} (hr : r ≤ 2 ^ s.cfg.w - 1) (hd : dst < s.cfg.cap) :
    writeResult r dst s = (s.setMem (s.mem.write dst r)).setPc (s.pc + 4) := by
  have hfit : r < 2 ^ s.cfg.w := (le_maxWord_iff _ _).1 hr
  rcases writeResult_cases r dst s with ⟨hover, -⟩ | ⟨-, hge, -⟩ | ⟨-, -, h⟩
  · omega
  · omega
  · exact h

/-- `t` is `s` after an ADD or a MUL that completed with the result `r` in cell `dst`. -/
abbrev CompletedWith (r dst : Nat) (s t : State) : Prop :=
  memRead t dst = r ∧ (∀ x, x ≠ dst → memRead t x = memRead s x) ∧ t.pc = s.pc + 4 ∧
    t.cfg = s.cfg ∧ t.terminated = s.terminated ∧ t.fault = s.fault

theorem completedWith_writeResult {s : State} {r dst : Nat} (hr : r ≤ 2 ^ s.cfg.w - 1) (hd : dst < s.cfg.cap) :
    CompletedWith r dst s (writeResult r dst s) := by
  have hread := memRead_setMem_write s hd r
  rw [writeResult_of_fits hr hd]
  exact ⟨by simp [hread], fun x hx => by simp [hread, hx], rfl, rfl, rfl, rfl⟩

/-! ### Executing an ADD or a MUL -/

theorem exec_add (src1 src2 dst : Nat) (s : State) :
    exec (.add src1 src2 dst) s = .next (writeResult (memRead s src1 + memRead s src2) dst s) := rfl

theorem exec_mul (src1 src2 dst : Nat) (s : State) :
    exec (.mul src1 src2 dst) s = .next (writeResult (memRead s src1 * memRead s src2) dst s) := rfl

/-- Settles O14: the sum is a result that fits. -/
theorem addCompletes : Obligations.AddCompletes :=
  fun s src1 src2 dst hr hd => ⟨_, exec_add src1 src2 dst s, completedWith_writeResult hr hd⟩

/-- Settles O15: the product is a result that fits. -/
theorem mulCompletes : Obligations.MulCompletes :=
  fun s src1 src2 dst hr hd => ⟨_, exec_mul src1 src2 dst s, completedWith_writeResult hr hd⟩

/-- Settles O17: the overflow is found before the destination is looked at. -/
theorem overflowStopsWithoutWriting : Obligations.OverflowStopsWithoutWriting := by
  intro s src1 src2 dst
  rw [exec_add, exec_mul]
  exact ⟨fun hr => congrArg _ (writeResult_of_overflow hr dst),
    fun hr => congrArg _ (writeResult_of_overflow hr dst)⟩

/-- Settles O19: both instructions write some result, and each of the three ends of that keeps the frame. -/
theorem arithmeticFrame : Obligations.ArithmeticFrame := by
  intro i src1 src2 dst s t hi hexec
  obtain ⟨r, rfl⟩ : ∃ r, t = writeResult r dst s := by
    rcases hi with rfl | rfl
    · exact ⟨_, (Host.Outcome.next.inj hexec).symm⟩
    · exact ⟨_, (Host.Outcome.next.inj hexec).symm⟩
  rcases writeResult_cases r dst s with ⟨-, h⟩ | ⟨-, -, h⟩ | ⟨-, hd, h⟩ <;> rw [h]
  · -- overflow
    exact ⟨rfl, rfl, fun _ _ => rfl, .inr ⟨rfl, fun _ => rfl, .inl rfl⟩⟩
  · -- a destination beyond capacity
    exact ⟨rfl, rfl, fun _ _ => rfl, .inr ⟨rfl, fun _ => rfl, .inr rfl⟩⟩
  · -- completed
    exact ⟨rfl, rfl, fun x hx => by simp [memRead_setMem_write s hd, hx], .inl ⟨rfl, rfl⟩⟩

/-! ### An ADD or a MUL as one step (R61, R62) -/

theorem exactResult_of_one {s : State} (h : opcodeWord s = 1) :
    exactResult s = memRead s (memRead s (s.pc + 1)) + memRead s (memRead s (s.pc + 2)) :=
  if_pos h

theorem exactResult_of_two {s : State} (h : opcodeWord s = 2) :
    exactResult s = memRead s (memRead s (s.pc + 1)) * memRead s (memRead s (s.pc + 2)) :=
  if_neg (by simp [h])

/-- A Running core at an ADD or a MUL writes the exact result. -/
theorem step_of_atArithmetic {s : State} (hl : s.cfg.Legal) (hrun : s.status = .running) (ha : AtArithmetic s) :
    step s = .next (writeResult (exactResult s) (dstAddress s) s) := by
  rw [step, if_pos hl, if_pos hrun, exec_fetch, if_pos ha]

/-- The three cases of R61 and R62, which name the result and the destination only. -/
theorem step_of_atArithmetic_cases {s : State} (hl : s.cfg.Legal) (hrun : s.status = .running)
    (ha : AtArithmetic s) :
    (2 ^ s.cfg.w - 1 < exactResult s → step s = .next (s.setFault (some .arithmeticOverflow))) ∧
    (exactResult s ≤ 2 ^ s.cfg.w - 1 → s.cfg.cap ≤ dstAddress s →
      step s = .next (s.setFault (some (.capacityExceeded (dstAddress s))))) ∧
    (exactResult s ≤ 2 ^ s.cfg.w - 1 → dstAddress s < s.cfg.cap →
      ∃ t, step s = .next t ∧ CompletedWith (exactResult s) (dstAddress s) s t) := by
  rw [step_of_atArithmetic hl hrun ha]
  exact ⟨fun hr => congrArg _ (writeResult_of_overflow hr _),
    fun hr hd => congrArg _ (writeResult_of_beyond hr hd),
    fun hr hd => ⟨_, rfl, completedWith_writeResult hr hd⟩⟩

/-- Settles O11: at opcode word 1 the exact result is the sum. -/
theorem addExecutes : Obligations.AddExecutes := by
  rintro s hl hrun hop a b d r rfl rfl rfl rfl
  rw [← exactResult_of_one hop]
  exact step_of_atArithmetic_cases hl hrun (.inl hop)

/-- Settles O12: at opcode word 2 the exact result is the product. -/
theorem mulExecutes : Obligations.MulExecutes := by
  rintro s hl hrun hop a b d r rfl rfl rfl rfl
  rw [← exactResult_of_two hop]
  exact step_of_atArithmetic_cases hl hrun (.inr hop)

end Sys2Proof.Machine
end

section
/-! PROOFS. The control statements (41_control.md): what one step does to `pc` and to the status, that every run
stops, and what a run counts. -/

namespace Sys2Proof.Machine

/-! ### The instruction a step runs (R70, R71, R75) -/

theorem exec_halt (op : Nat) (s : State) : exec (.halt op) s = .next (s.setTerminated true) := rfl

/-- Settles O16: the effect of a HALT mentions neither the opcode word nor the state. -/
theorem haltCompletes : Obligations.HaltCompletes := exec_halt

/-- Settles O13: a `pc` at or beyond capacity is no ADD or MUL either. -/
theorem haltExecutes : Obligations.HaltExecutes := by
  intro s hl hrun hop
  refine step_of_not_atArithmetic hl hrun fun ha => ?_
  rcases hop with ⟨h1, h2⟩ | hpc
  · exact ha.elim h1 h2
  · exact absurd (pc_lt_cap_of_atArithmetic ha) (Nat.not_lt.2 hpc)

/-- The step of a Running core adds nothing to `exec`. -/
theorem step_of_running {s : State} (hl : s.cfg.Legal) (hrun : s.status = .running) :
    step s = exec (fetch s) s := by
  rw [step, if_pos hl, if_pos hrun]

/-- Settles O21: decoding gives the instruction whose words it reads. -/
theorem stepRunsDecodedInstruction : Obligations.StepRunsDecodedInstruction := by
  intro s i hl hrun hi hread
  rw [step_of_running hl hrun, fetch, decodeAt_of_reads_encode hi hread]

/-- Settles O22: in a legal configuration the step is `advance`, which writes no configuration. -/
theorem stepIsTotal : Obligations.StepIsTotal :=
  fun s => ⟨fun hl => ⟨_, step_eq_advance hl, advance_cfg s⟩, fun hl => if_neg hl⟩

theorem iterate_advance_of_stopped {s : State} (hstop : s.status ≠ .running) (n : Nat) : advance^[n] s = s :=
  Function.iterate_fixed (advance_of_stopped hstop) n

/-- Settles O23: a stopped core is a fixed point of `advance`. -/
theorem stoppedCoreKeepsItsState : Obligations.StoppedCoreKeepsItsState := by
  intro s hl hstop
  refine ⟨?_, iterate_advance_of_stopped hstop⟩
  rw [step_eq_advance hl, advance_of_stopped hstop]

/-- Over all-zero memory, placed words read as the list does: 0 beyond its end. -/
theorem memRead_placeWords_zeroed {c : Config} {ws : List Nat} (hfit : ws.length ≤ c.cap) (a : Nat) :
    memRead (placeWords (State.zeroed c) 0 ws) a = ws.getD a 0 := by
  rw [memRead_placeWords, memRead_zeroed, State.zeroed_cfg]
  rcases lt_or_ge a ws.length with ha | ha
  · rw [if_pos (by omega), Nat.sub_zero]
  · rw [if_neg (by omega), List.getD_eq_default _ _ ha]

@[simp] theorem makeRunning_status (s : State) : (makeRunning s).status = .running := rfl

/-- Making a core Running changes nothing that a fetch reads. -/
@[simp] theorem fetch_makeRunning (s : State) : fetch (makeRunning s) = fetch s := rfl

/-- What the first step after reset fetches from words placed at its `pc`. -/
theorem fetch_placeWords_zeroed {c : Config} {ws : List Nat} (hfit : ws.length ≤ c.cap) :
    fetch (placeWords (State.zeroed c) 0 ws) = decode ws := by
  obtain ⟨-, hpc, -, -⟩ := placeWords_fields (State.zeroed c) 0 ws
  rw [fetch, hpc, State.zeroed_pc, funext (memRead_placeWords_zeroed hfit), decode]

/-- Settles O5: the fetch and `decodeTableWord` decode the same four words. -/
theorem tableWordRunsAfterReset : Obligations.TableWordRunsAfterReset := by
  intro nbits w i hdecode
  obtain rfl := Option.some.inj hdecode
  have hl : (State.reset.withFetchWord nbits w).cfg.Legal := by
    obtain ⟨hcfg, -⟩ := placeWords_fields State.reset 0 (splitWords Config.reference.w 4 (w % 2 ^ nbits))
    exact hcfg ▸ legal_reference
  have hfetch : fetch (State.reset.withFetchWord nbits w) =
      decode (splitWords Config.reference.w 4 (w % 2 ^ nbits)) :=
    fetch_placeWords_zeroed (by rw [splitWords_length]; decide)
  rw [step_of_running hl (makeRunning_status _), hfetch]

/-! ### The program counter after a step (R72, R76) -/

theorem atArithmetic_of_completes {s : State} (hc : completes s = true) : AtArithmetic s := by
  obtain ⟨-, ha, -⟩ := (completes_iff s).1 hc
  exact ha

/-- Settles O24: an ADD or a MUL stands below capacity, which leaves room for `pc + 4`. -/
theorem pcAdvancesByFourOrStays : Obligations.PcAdvancesByFourOrStays := by
  intro s t hstep
  refine ⟨fun hc => ?_, fun hc => (mem_pc_of_step_of_not_completes hstep (by simp [hc])).2⟩
  obtain ⟨hl, -⟩ := step_cases hstep
  exact ⟨by rw [eq_of_step_of_completes hstep hc, State.setPc_pc],
    Nat.le_sub_one_of_lt (pc_add_four_lt_of_atArithmetic hl (atArithmetic_of_completes hc))⟩

theorem pc_lt_cap_of_completes {s : State} (hc : completes s = true) : s.pc < s.cfg.cap :=
  pc_lt_cap_of_atArithmetic (atArithmetic_of_completes hc)

/-- Settles O37: `pc` moves only from below capacity, and then by 4. -/
theorem stepKeepsPcReachable : Obligations.StepKeepsPcReachable := by
  rintro s t ⟨haligned, hle⟩ hstep
  obtain ⟨hmove, hstay⟩ := pcAdvancesByFourOrStays s t hstep
  rw [State.PcReachable, step_cfg hstep]
  cases hc : completes s with
  | true =>
    obtain ⟨hpc, -⟩ := hmove hc
    have hlt := pc_lt_cap_of_completes hc
    omega
  | false => exact hstay hc ▸ ⟨haligned, hle⟩

/-! ### The status after a step (R74) -/

theorem completes_eq_false_of_stopped {s : State} (hstop : s.status ≠ .running) : completes s = false := by
  simp [completes, hstop]

theorem completes_eq_false_of_not_atArithmetic {s : State} (hna : ¬ AtArithmetic s) : completes s = false :=
  Bool.eq_false_iff.2 (hna ∘ atArithmetic_of_completes)

/-- The three transitions of R74, by what stands at `pc` and whether it completes. -/
theorem status_of_step_of_running {s t : State} (hrun : s.status = .running) (hstep : step s = .next t) :
    t.status = if AtArithmetic s then (if completes s = true then .running else .faulted) else .halted := by
  obtain ⟨hf, ht⟩ := (State.status_running_iff s).1 hrun
  obtain ⟨-, ⟨hstop, -⟩ | ⟨-, ⟨hna, rfl⟩ | ⟨ha, hend⟩⟩⟩ := step_cases hstep
  · exact absurd hrun hstop
  · -- HALT
    rw [if_neg hna, State.status_halted_iff]
    exact ⟨hf, rfl⟩
  have hiff := completes_iff s
  rw [if_pos ha]
  rcases hend with ⟨hover, rfl⟩ | ⟨-, hbeyond, rfl⟩ | ⟨hr, hd, rfl⟩
  · -- overflow
    rw [if_neg (by simp [hiff, hover]), State.status_faulted_iff]
    exact Option.some_ne_none _
  · -- a destination beyond capacity
    rw [if_neg (by simp [hiff, hbeyond]), State.status_faulted_iff]
    exact Option.some_ne_none _
  · -- a completed ADD or MUL
    rw [if_pos (hiff.2 ⟨hrun, ha, hr, hd⟩), State.status_running_iff]
    exact ⟨hf, ht⟩

/-- Settles O25: a stopped core stays as it is, and a Running one goes where R74 says. -/
theorem statusTransitions : Obligations.StatusTransitions := by
  intro s t hstep
  by_cases hrun : s.status = .running
  · rw [status_of_step_of_running hrun hstep]
    by_cases ha : AtArithmetic s
    · cases completes s <;> simp [hrun, ha]
    · simp [hrun, ha, completes_eq_false_of_not_atArithmetic ha]
  · obtain rfl := eq_of_step_of_stopped hrun hstep
    simp [hrun, completes_eq_false_of_stopped hrun]

theorem advance_running_iff_completes {s : State} (hl : s.cfg.Legal) :
    (advance s).status = .running ↔ completes s = true :=
  (statusTransitions s _ (step_eq_advance hl)).1

/-! ### Any number of steps -/

/-- What every step keeps, a requested step keeps, since it otherwise leaves the state as it was. -/
theorem advance_keeps {P : State → Prop} (hP : ∀ s t, P s → step s = .next t → P t) (s : State) (hs : P s) :
    P (advance s) := by
  unfold advance
  split
  · exact hP s _ hs ‹_›
  · exact hs
  · exact hs

theorem iterate_advance_cfg (s : State) (n : Nat) : (advance^[n] s).cfg = s.cfg :=
  Function.Iterate.rec (fun t : State => t.cfg = s.cfg) rfl (fun t ht => (advance_cfg t).trans ht) n

/-- The program counters of R76, after any number of steps from one of them. -/
theorem pcReachable_iterate_advance {s : State} (hs : s.PcReachable) (n : Nat) : (advance^[n] s).PcReachable :=
  Function.Iterate.rec State.PcReachable hs (advance_keeps stepKeepsPcReachable) n

theorem running_of_advance_running {s : State} (h : (advance s).status = .running) : s.status = .running := by
  by_contra hstop
  exact hstop (advance_of_stopped hstop ▸ h)

theorem running_of_iterate_advance_running {s : State} {n : Nat} (h : (advance^[n] s).status = .running) :
    s.status = .running := by
  by_contra hstop
  exact hstop (iterate_advance_of_stopped hstop n ▸ h)

/-! ### What a load gives (R110, R117, R118) -/

/-- Everything a load that succeeds says (R115, R116, D3). -/
theorem load_eq_loaded_iff {cfg : Config} {text : List Char} {s : State} :
    load cfg text = .loaded s ↔
      cfg.Legal ∧ (programFields text).all (fieldValid cfg.w) = true ∧ (programFields text).length ≤ cfg.cap ∧
        s = initialState cfg ((programFields text).map decimalValue) := by
  unfold load
  by_cases hl : cfg.Legal
  · rw [if_neg (not_not_intro hl)]
    split
    · next hvalid =>
      split
      · next hfit => simp only [hvalid, hfit, true_and, and_iff_right hl, LoadResult.loaded.injEq, eq_comm]
      · next hfit => simp [hfit]
    · next hvalid => simp [hvalid]
  · simp [hl]

@[simp] theorem initialState_cfg (cfg : Config) (ws : List Nat) : (initialState cfg ws).cfg = cfg := rfl
@[simp] theorem initialState_pc (cfg : Config) (ws : List Nat) : (initialState cfg ws).pc = 0 := rfl

/-- What a run from a load starts with. -/
theorem legal_cfg_pc_of_load {cfg : Config} {text : List Char} {s : State} (h : load cfg text = .loaded s) :
    cfg.Legal ∧ s.cfg = cfg ∧ s.pc = 0 := by
  obtain ⟨hl, -, -, rfl⟩ := load_eq_loaded_iff.1 h
  exact ⟨hl, initialState_cfg _ _, initialState_pc _ _⟩

/-- Settles O39: no multiple of 4 lies between `CAP` and the least one at or beyond it. -/
theorem reachableProgramCounters : Obligations.ReachableProgramCounters := by
  intro cfg text s n hload
  obtain ⟨-, hcfg, hpc⟩ := legal_cfg_pc_of_load hload
  have hcap : (advance^[n] s).cfg.cap = cfg.cap := by rw [iterate_advance_cfg, hcfg]
  obtain ⟨haligned, hle⟩ := pcReachable_iterate_advance (s := s) (by simp [State.PcReachable, hpc]) n
  rw [hcap] at hle
  refine ⟨haligned, hle, fun m hm hge => by omega, fun ha => ?_⟩
  have hlt := hcap ▸ pc_lt_cap_of_atArithmetic ha
  exact ⟨hlt, fun k _ hk => by omega⟩

/-! ### Every run stops (R77, R79) -/

/-- A core that is still Running has completed an ADD or a MUL at every step. -/
theorem pc_iterate_advance_of_running {s : State} (hl : s.cfg.Legal) {n : Nat}
    (hrun : (advance^[n] s).status = .running) : (advance^[n] s).pc = s.pc + 4 * n := by
  induction n with
  | zero => rfl
  | succ n ih =>
    have hln : (advance^[n] s).cfg.Legal := (iterate_advance_cfg s n).symm ▸ hl
    rw [Function.iterate_succ_apply'] at hrun ⊢
    obtain ⟨hmove, -⟩ := pcAdvancesByFourOrStays _ _ (step_eq_advance hln)
    obtain ⟨hpc, -⟩ := hmove ((advance_running_iff_completes hln).1 hrun)
    rw [hpc, ih (running_of_advance_running hrun)]
    omega

/-- R77's argument: the last of `stepBound` steps would have to complete an ADD or a MUL at or beyond capacity. -/
theorem stopped_iterate_stepBound {s : State} (hl : s.cfg.Legal) :
    (advance^[stepBound s] s).status ≠ .running := by
  intro hrun
  rw [stepBound, Function.iterate_succ_apply'] at hrun
  have hcfg := iterate_advance_cfg s ((s.cfg.cap - s.pc + 3) / 4)
  have hlast := pc_lt_cap_of_completes ((advance_running_iff_completes (hcfg.symm ▸ hl)).1 hrun)
  rw [hcfg, pc_iterate_advance_of_running hl (running_of_advance_running hrun)] at hlast
  omega

/-- Settles O40: from `pc = 0` the bound of R77 is the step bound. -/
theorem everyRunStops : Obligations.EveryRunStops := by
  intro cfg text s hload
  obtain ⟨hl, rfl, hpc⟩ := legal_cfg_pc_of_load hload
  exact ⟨stepBound s, by simp [stepBound, hpc], stopped_iterate_stepBound hl⟩

/-- The run loop may as well go on stepping a stopped core. -/
theorem runLoop_eq_iterate_advance (n : Nat) (s : State) : runLoop n s = advance^[n] s := by
  induction n generalizing s with
  | zero => rfl
  | succ n ih =>
    rw [runLoop]
    split
    · rw [ih, Function.iterate_succ_apply]
    · next hstop => rw [iterate_advance_of_stopped hstop]

/-- After the core has stopped, more steps give the same state. -/
theorem iterate_advance_eq_of_le {s : State} {n m : Nat} (hstop : (advance^[n] s).status ≠ .running)
    (hle : n ≤ m) : advance^[m] s = advance^[n] s := by
  obtain ⟨d, rfl⟩ := Nat.exists_eq_add_of_le' hle
  rw [Function.iterate_add_apply, iterate_advance_of_stopped hstop]

/-- Settles O41: the run's steps are those up to the first stop, which the step bound does not miss. -/
theorem runStepsUntilStopped : Obligations.RunStepsUntilStopped := by
  intro s hl
  have hbound := stopped_iterate_stepBound hl
  have hstops : ∃ n, (advance^[n] s).status ≠ .running := ⟨_, hbound⟩
  rw [run, runLoop_eq_iterate_advance]
  exact ⟨hbound, Nat.find hstops,
    iterate_advance_eq_of_le (Nat.find_spec hstops) (Nat.find_min' hstops hbound),
    fun k hk => not_not.1 (Nat.find_min hstops hk)⟩

/-! ### The instruction count (R80) -/

theorem instructionCount_of_stopped {s : State} (hstop : s.status ≠ .running) (n : Nat) :
    instructionCount n s = 0 := by
  cases n with
  | zero => rfl
  | succ n => exact if_neg hstop

/-- A step of a Running core counts unless it raises a fault. -/
theorem stepCounts_of_running {s : State} (hl : s.cfg.Legal) (hrun : s.status = .running) :
    stepCounts s = decide ((advance s).status ≠ .faulted) := by
  simp [stepCounts, hrun, step_eq_advance hl, State.status_faulted_iff]

theorem instructionCount_succ_of_running {s : State} (hl : s.cfg.Legal) (hrun : s.status = .running) (n : Nat) :
    instructionCount (n + 1) s =
      (if (advance s).status ≠ .faulted then 1 else 0) + instructionCount n (advance s) := by
  rw [instructionCount, if_pos hrun, stepCounts_of_running hl hrun]
  simp only [decide_eq_true_eq]

/-- Every step that leaves the core Running counts. -/
theorem instructionCount_add_of_running {s : State} (hl : s.cfg.Legal) {n : Nat}
    (hrun : (advance^[n] s).status = .running) (m : Nat) :
    instructionCount (m + n) s = n + instructionCount m (advance^[n] s) := by
  induction n generalizing s with
  | zero => simp
  | succ n ih =>
    rw [Function.iterate_succ_apply] at hrun ⊢
    have hnext := running_of_iterate_advance_running hrun
    rw [← Nat.add_assoc, instructionCount_succ_of_running hl (running_of_advance_running hnext),
      if_pos (by simp [hnext]), ih ((advance_cfg s).symm ▸ hl) hrun]
    omega

/-- The step that stops the core counts if it is a HALT, and no later step counts. -/
theorem instructionCount_of_last_step {s : State} (hl : s.cfg.Legal) (hrun : s.status = .running)
    (hstop : (advance s).status ≠ .running) (n : Nat) :
    instructionCount (n + 1) s = if (advance s).status ≠ .faulted then 1 else 0 := by
  rw [instructionCount_succ_of_running hl hrun, instructionCount_of_stopped hstop, Nat.add_zero]

/-- Settles O42: all steps but the last leave the core Running and count. -/
theorem instructionCountOfARun : Obligations.InstructionCountOfARun := by
  intro s n m hl hrun hbefore hstop hle
  cases n with
  | zero => exact absurd hrun hstop
  | succ n =>
    obtain ⟨d, rfl⟩ := Nat.exists_eq_add_of_le' hle
    have hlast := hbefore n (Nat.lt_succ_self n)
    have hln : (advance^[n] s).cfg.Legal := (iterate_advance_cfg s n).symm ▸ hl
    rw [Function.iterate_succ_apply'] at hstop ⊢
    rw [show d + (n + 1) = d + 1 + n by omega, instructionCount_add_of_running hl hlast,
      instructionCount_of_last_step hln hlast hstop]
    exact ⟨fun h => by simp [h], fun h => by simp [h]⟩

end Sys2Proof.Machine
end

section
/-! PROOFS. The fault statements (60_exceptions.md): which instruction raises which fault, and what a raise
writes. -/

namespace Sys2Proof.Machine

/-! ### Executing an instruction (R91) -/

/-- A result that raises CapacityExceeded names the destination of its write. -/
theorem capacityExceeded_of_writeResult {s : State} {r dst a : Nat} (hf : s.fault = none)
    (h : (writeResult r dst s).fault = some (.capacityExceeded a)) : s.cfg.cap ≤ a ∧ dst = a := by
  rcases writeResult_cases r dst s with ⟨-, hw⟩ | ⟨-, hd, hw⟩ | ⟨-, -, hw⟩ <;> rw [hw] at h
  · -- overflow
    simp at h
  · -- a destination beyond capacity
    obtain rfl : dst = a := by simpa using h
    exact ⟨hd, rfl⟩
  · -- completed
    simp [hf] at h

/-- Settles O18: an ADD and a MUL record what their write records, and a HALT writes no fault. -/
theorem capacityExceededOnlyAtWrite : Obligations.CapacityExceededOnlyAtWrite := by
  intro s src1 src2 dst
  rw [exec_add, exec_mul]
  refine ⟨fun hr hd => congrArg _ (writeResult_of_beyond hr hd),
    fun hr hd => congrArg _ (writeResult_of_beyond hr hd), fun i t a hexec hf hta => ?_⟩
  cases i with
  | add x y d =>
    obtain rfl := Host.Outcome.next.inj hexec
    obtain ⟨hcap, rfl⟩ := capacityExceeded_of_writeResult hf hta
    exact ⟨hcap, x, y, .inl rfl⟩
  | mul x y d =>
    obtain rfl := Host.Outcome.next.inj hexec
    obtain ⟨hcap, rfl⟩ := capacityExceeded_of_writeResult hf hta
    exact ⟨hcap, x, y, .inr rfl⟩
  | halt op =>
    rw [exec_halt] at hexec
    obtain rfl := Host.Outcome.next.inj hexec
    simp [hf] at hta

/-! ### A step that raises (R90, R93, R94) -/

/-- The condition of R90 under which the step from `s` raises `f`. -/
abbrev Raises (s : State) (f : Fault) : Prop :=
  s.status = .running ∧ AtArithmetic s ∧
    ((f = .arithmeticOverflow ∧ 2 ^ s.cfg.w - 1 < exactResult s) ∨
      (f = .capacityExceeded (dstAddress s) ∧ s.cfg.cap ≤ dstAddress s ∧
        exactResult s ≤ 2 ^ s.cfg.w - 1))

/-- A step that raises is the one write of the fault record. -/
theorem step_of_raises {s : State} {f : Fault} (hl : s.cfg.Legal) (h : Raises s f) :
    step s = .next (s.setFault (some f)) := by
  obtain ⟨hrun, ha, hcause⟩ := h
  obtain ⟨hover, hbeyond, -⟩ := step_of_atArithmetic_cases hl hrun ha
  rcases hcause with ⟨rfl, hr⟩ | ⟨rfl, hd, hr⟩
  · exact hover hr
  · exact hbeyond hr hd

/-- No other step leaves a fault where there was none. -/
theorem raises_of_step {s t : State} {f : Fault} (hstep : step s = .next t) (hf : s.fault = none)
    (htf : t.fault = some f) : Raises s f := by
  obtain ⟨-, ⟨-, rfl⟩ | ⟨hrun, ⟨-, rfl⟩ | ⟨ha, ⟨hr, rfl⟩ | ⟨hr, hd, rfl⟩ | ⟨-, -, rfl⟩⟩⟩⟩ :=
    step_cases hstep
  · -- a stopped core
    simp [hf] at htf
  · -- HALT
    simp [hf] at htf
  · -- overflow
    obtain rfl := Option.some.inj htf
    exact ⟨hrun, ha, .inl ⟨rfl, Nat.sub_one_lt_of_le (Nat.two_pow_pos _) hr⟩⟩
  · -- a destination beyond capacity
    obtain rfl := Option.some.inj htf
    exact ⟨hrun, ha, .inr ⟨rfl, hd, Nat.le_sub_one_of_lt hr⟩⟩
  · -- a completed ADD or MUL
    simp [hf] at htf

theorem eq_setFault_of_step {s t : State} {f : Fault} (hstep : step s = .next t) (h : Raises s f) :
    t = s.setFault (some f) := by
  obtain ⟨hl, -⟩ := step_cases hstep
  exact Host.Outcome.next.inj (hstep.symm.trans (step_of_raises hl h))

/-- Settles O28: a step records a fault exactly where R90 says that it raises it, and a raise leaves `pc`. -/
theorem faultCausesAndCodes : Obligations.FaultCausesAndCodes := by
  refine ⟨⟨rfl, fun _ => rfl, rfl⟩, fun s t f hstep hf =>
    ⟨⟨raises_of_step hstep hf, fun h => ?_⟩, fun htf => ?_⟩⟩
  · rw [eq_setFault_of_step hstep h, State.setFault_fault]
  · rw [eq_setFault_of_step hstep (raises_of_step hstep hf htf), State.setFault_pc]

/-- Settles O29: a new fault is a raise, and only a Running core raises. -/
theorem faultEntryIsPrecise : Obligations.FaultEntryIsPrecise := by
  intro s t hstep hf hne
  obtain ⟨f, htf⟩ := Option.ne_none_iff_exists'.1 hne
  have hraises := raises_of_step hstep hf htf
  obtain rfl := eq_setFault_of_step hstep hraises
  obtain ⟨hrun, -⟩ := hraises
  obtain ⟨-, ht⟩ := (State.status_running_iff s).1 hrun
  exact ⟨rfl, ht, (State.status_faulted_iff _).2 hne⟩

/-- Settles O30: an overflow is raised whatever the destination. -/
theorem overflowWinsOverCapacity : Obligations.OverflowWinsOverCapacity :=
  fun _ hl hrun ha hr _ => step_of_raises hl ⟨hrun, ha, .inl ⟨rfl, hr⟩⟩

end Sys2Proof.Machine
end

section
/-! PROOFS. The load statements (70_reset_and_hazards.md, R110 to R118): trimming, splitting, the ways a load ends,
and the state it gives. -/

namespace Sys2Proof.Machine

/-! ### Trimming (R112) -/

theorem isSpace_iff (c : Char) : isSpace c = true ↔ c.toNat ∈ [0x20, 0x09, 0x0A, 0x0B, 0x0C, 0x0D] := by
  simp [isSpace, ← Char.toNat_inj, or_assoc]

/-- Trimming takes white space off the front, then off the end. -/
theorem trim_eq_rdropWhile (text : List Char) : trim text = (text.dropWhile isSpace).rdropWhile isSpace := rfl

theorem exists_trim_decomposition (text : List Char) :
    ∃ before after, text = before ++ trim text ++ after ∧
      before.all isSpace = true ∧ after.all isSpace = true := by
  refine ⟨text.takeWhile isSpace, (text.dropWhile isSpace).rtakeWhile isSpace, ?_, List.all_takeWhile, ?_⟩
  · rw [trim_eq_rdropWhile, List.append_assoc, List.rdropWhile_append_rtakeWhile,
      List.takeWhile_append_dropWhile]
  · exact List.all_eq_true.2 fun _ => List.mem_rtakeWhile_imp

theorem isSpace_of_head?_dropWhile {text : List Char} {c : Char}
    (h : (text.dropWhile isSpace).head? = some c) : isSpace c = false := by
  simpa only [h] using List.head?_dropWhile_not isSpace text

/-- What begins the trimmed text begins the text whose front alone is trimmed. -/
theorem isSpace_of_head?_trim {text : List Char} {c : Char} (h : (trim text).head? = some c) :
    isSpace c = false := by
  obtain ⟨after, hfront⟩ := List.rdropWhile_prefix isSpace (text.dropWhile isSpace)
  refine isSpace_of_head?_dropWhile (text := text) ?_
  rw [← hfront, ← trim_eq_rdropWhile, List.head?_append, h, Option.some_or]

theorem isSpace_of_getLast?_trim {text : List Char} {c : Char} (h : (trim text).getLast? = some c) :
    isSpace c = false := by
  rw [trim, List.getLast?_reverse] at h
  exact isSpace_of_head?_dropWhile h

/-! ### Splitting (R113) -/

/-- A text is one field, or a field, a separator and a text. -/
theorem text_induction {sep : Char} {P : List Char → Prop} (last : ∀ f, sep ∉ f → P f)
    (field : ∀ f text, sep ∉ f → P text → P (f ++ sep :: text)) (text : List Char) : P text := by
  by_cases h : sep ∈ text
  · obtain ⟨f, rest, rfl, hf⟩ := List.eq_append_cons_of_mem h
    exact field f rest hf (text_induction last field rest)
  · exact last text h
termination_by text.length
decreasing_by simp [*]; omega

theorem splitAtChar_ne_nil (sep : Char) (text : List Char) : splitAtChar sep text ≠ [] := by
  induction text using text_induction (sep := sep) with
  | last f hf => simp [splitAtChar_of_notMem hf]
  | field f text hf _ => simp [splitAtChar_append_cons hf]

theorem intercalate_splitAtChar (sep : Char) (text : List Char) :
    List.intercalate [sep] (splitAtChar sep text) = text := by
  induction text using text_induction (sep := sep) with
  | last f hf => simp [splitAtChar_of_notMem hf]
  | field f text hf ih =>
    rw [splitAtChar_append_cons hf, List.intercalate_cons_of_ne_nil (splitAtChar_ne_nil sep text), ih,
      List.append_assoc, List.singleton_append]

theorem notMem_of_mem_splitAtChar {sep : Char} {text f : List Char} (h : f ∈ splitAtChar sep text) :
    sep ∉ f := by
  induction text using text_induction (sep := sep) with
  | last g hg =>
    obtain rfl : f = g := by simpa [splitAtChar_of_notMem hg] using h
    exact hg
  | field g text hg ih =>
    rw [splitAtChar_append_cons hg] at h
    rcases List.mem_cons.1 h with rfl | h
    · exact hg
    · exact ih h

theorem length_splitAtChar (sep : Char) (text : List Char) :
    (splitAtChar sep text).length = text.count sep + 1 := by
  induction text using text_induction (sep := sep) with
  | last f hf => simp [splitAtChar_of_notMem hf, List.count_eq_zero_of_not_mem hf]
  | field f text hf ih => simp [splitAtChar_append_cons hf, List.count_eq_zero_of_not_mem hf, ih]

/-- Splitting loses the separators only. -/
theorem exists_mem_splitAtChar {sep c : Char} {text : List Char} (hc : c ∈ text) (hsep : c ≠ sep) :
    ∃ f ∈ splitAtChar sep text, c ∈ f := by
  induction text using text_induction (sep := sep) with
  | last f hf => exact ⟨f, by simp [splitAtChar_of_notMem hf], hc⟩
  | field f text hf ih =>
    rw [splitAtChar_append_cons hf]
    rcases List.mem_append.1 hc with hc | hc
    · exact ⟨f, List.mem_cons_self, hc⟩
    · obtain ⟨g, hg, hcg⟩ := ih (List.mem_of_ne_of_mem hsep hc)
      exact ⟨g, List.mem_cons_of_mem f hg, hcg⟩

/-- Settles O47: what splitting at any separator does, at the comma. -/
theorem fieldsAreSplitAtCommas : Obligations.FieldsAreSplitAtCommas :=
  fun _ => ⟨intercalate_splitAtChar _ _, fun _ => notMem_of_mem_splitAtChar, length_splitAtChar _ _⟩

/-! ### The ways a load fails (R114 to R116) -/

/-- A valid field, R114 in full. -/
abbrev ValidField (w : Nat) (f : List Char) : Prop :=
  f ≠ [] ∧ (∀ c ∈ f, 48 ≤ c.toNat ∧ c.toNat ≤ 57) ∧ decimalValue f ≤ 2 ^ w - 1

theorem isDigit_iff (c : Char) : c.isDigit = true ↔ 48 ≤ c.toNat ∧ c.toNat ≤ 57 := Char.isDigit_iff_toNat

theorem fieldValid_iff (w : Nat) (f : List Char) : fieldValid w f = true ↔ ValidField w f := by
  simp only [fieldValid, Bool.and_eq_true, decide_eq_true_eq, List.all_eq_true, isDigit_iff, and_assoc]
  rfl

theorem all_fieldValid_iff (w : Nat) (fields : List (List Char)) :
    fields.all (fieldValid w) = true ↔ ∀ f ∈ fields, ValidField w f := by
  simp only [List.all_eq_true, fieldValid_iff]

theorem load_of_invalid_field {cfg : Config} {text f : List Char} (hl : cfg.Legal)
    (hf : f ∈ programFields text) (hinvalid : ¬ ValidField cfg.w f) : load cfg text = .parseError := by
  have hall := mt (all_fieldValid_iff cfg.w (programFields text)).1 fun h => hinvalid (h f hf)
  rw [load, if_neg (not_not_intro hl), if_neg hall]

/-- Where every field is valid, the count decides. -/
theorem load_of_valid_fields {cfg : Config} {text : List Char} (hl : cfg.Legal)
    (hvalid : ∀ f ∈ programFields text, ValidField cfg.w f) :
    load cfg text =
      if (programFields text).length ≤ cfg.cap then
        .loaded (initialState cfg ((programFields text).map decimalValue))
      else .loadCapacityExceeded := by
  rw [load, if_neg (not_not_intro hl), if_pos ((all_fieldValid_iff _ _).2 hvalid)]

/-- Settles O44: with valid fields alone a load ends in one of the two other ways. -/
theorem parseErrorExactlyOnInvalidField : Obligations.ParseErrorExactlyOnInvalidField := by
  refine fun cfg text hl => ⟨fun hload => ?_, fun ⟨f, hf, hinvalid⟩ => load_of_invalid_field hl hf hinvalid⟩
  by_contra! hvalid
  rw [load_of_valid_fields hl hvalid] at hload
  split at hload <;> cases hload

/-- Settles O45: the count, one more than the commas, is looked at only where every field is valid. -/
theorem loadBeyondCapacityFails : Obligations.LoadBeyondCapacityFails := by
  refine fun cfg text hl => ⟨?_, fun f => load_of_invalid_field hl⟩
  rw [← length_splitAtChar, ← programFields]
  by_cases hvalid : ∀ f ∈ programFields text, ValidField cfg.w f
  · rw [load_of_valid_fields hl hvalid, and_iff_right hvalid]
    split
    · next hfit => simpa using hfit
    · next hover => simpa using hover
  · obtain ⟨f, hf, hinvalid⟩ : ∃ f ∈ programFields text, ¬ ValidField cfg.w f := by
      simpa only [not_forall, exists_prop] using hvalid
    simp [load_of_invalid_field hl hf hinvalid, hvalid]

/-- Settles O46: a character that remains and is no comma stands in a field, which needs it to be a digit. -/
theorem trimTakesWhiteSpaceAtTheEnds : Obligations.TrimTakesWhiteSpaceAtTheEnds := by
  refine fun text => ⟨exists_trim_decomposition text, fun c h => h.elim isSpace_of_head?_trim
    isSpace_of_getLast?_trim, isSpace_iff, fun cfg hl c hc hdigit hcomma => ?_⟩
  obtain ⟨f, hf, hcf⟩ := exists_mem_splitAtChar hc hcomma
  refine load_of_invalid_field hl hf fun ⟨_, hdigits, _⟩ => ?_
  simp [(isDigit_iff c).2 (hdigits c hcf)] at hdigit

/-! ### The state a load gives (R117, R118) -/

@[simp] theorem initialState_terminated (cfg : Config) (ws : List Nat) :
    (initialState cfg ws).terminated = false := rfl
@[simp] theorem initialState_fault (cfg : Config) (ws : List Nat) : (initialState cfg ws).fault = none := rfl
@[simp] theorem initialState_status (cfg : Config) (ws : List Nat) :
    (initialState cfg ws).status = .running := rfl

theorem memRead_initialState {cfg : Config} {ws : List Nat} (hfit : ws.length ≤ cfg.cap) (k : Nat) :
    memRead (initialState cfg ws) k = ws.getD k 0 := by
  rcases lt_or_ge k cfg.cap with hk | hk
  · have hread := Memory.read_memoryOfWords 0 k ws
    rw [Nat.zero_add] at hread
    exact (memRead_of_lt hk).trans hread
  · rw [memRead_of_ge hk, List.getD_eq_default _ _ (hfit.trans hk)]

theorem initialState_inv {cfg : Config} {ws : List Nat} (hl : cfg.Legal) (hfit : ws.length ≤ cfg.cap)
    (hwords : ∀ v ∈ ws, IsWord cfg.w v) : (initialState cfg ws).Inv := by
  have hcells : cellsInRange cfg (memoryOfWords 0 ws) = true := by
    refine (cellsInRange_iff _ _).2 fun c hc => ?_
    obtain ⟨-, hlt, hword⟩ := Memory.mem_memoryOfWords hc
    exact ⟨by omega, hwords _ hword⟩
  exact ⟨hl, Memory.wfFrom_memoryOfWords 0 ws, hcells, Nat.two_pow_pos _, rfl, by simp⟩

theorem isWord_of_validField {w : Nat} {f : List Char} (h : ValidField w f) : IsWord w (decimalValue f) := by
  obtain ⟨-, -, hmax⟩ := h
  exact (le_maxWord_iff _ _).1 hmax

/-- Settles O43: the load's own state, with the words its fields spell. -/
theorem loadGivesInitialState : Obligations.LoadGivesInitialState := by
  intro cfg text s hload
  obtain ⟨-, -, hfit, rfl⟩ := load_eq_loaded_iff.1 hload
  exact ⟨memRead_initialState (by simpa using hfit), hfit, rfl, rfl, rfl, rfl, rfl⟩

/-- Settles O35: the fields of a load that succeeds are valid, so they spell words. -/
theorem loadedStateHasInvariant : Obligations.LoadedStateHasInvariant := by
  intro cfg text s hload
  obtain ⟨hl, hvalid, hfit, rfl⟩ := load_eq_loaded_iff.1 hload
  rw [all_fieldValid_iff] at hvalid
  refine ⟨initialState_inv hl (by simpa using hfit) ?_, by simp [State.PcReachable], rfl⟩
  simpa using fun f hf => isWord_of_validField (hvalid f hf)

/-! ### Words as program text (R111) -/

theorem programText_cons_cons (v u : Nat) (vs : List Nat) :
    programText (v :: u :: vs) = decimal v ++ ',' :: programText (u :: vs) := rfl

theorem splitAtChar_programText {ws : List Nat} (hne : ws ≠ []) :
    splitAtChar ',' (programText ws) = ws.map decimal := by
  have hcomma := notMem_decimal (c := ',') (by decide)
  induction ws with
  | nil => exact absurd rfl hne
  | cons v vs ih =>
    cases vs with
    | nil => exact splitAtChar_of_notMem (hcomma v)
    | cons u us =>
      rw [programText_cons_cons, splitAtChar_append_cons (hcomma v), ih (List.cons_ne_nil _ _)]
      rfl

/-- Each character of a program text is a comma or stands in a field, so it is no white space. -/
theorem isSpace_of_mem_programText {ws : List Nat} {c : Char} (hc : c ∈ programText ws) :
    isSpace c = false := by
  by_cases hne : ws = []
  · simp [hne, programText] at hc
  by_cases hcomma : c = ','
  · rw [hcomma]; rfl
  obtain ⟨f, hf, hcf⟩ := exists_mem_splitAtChar hc hcomma
  rw [splitAtChar_programText hne, List.mem_map] at hf
  obtain ⟨v, -, rfl⟩ := hf
  exact isSpace_of_mem_decimal hcf

theorem trim_programText (ws : List Nat) : trim (programText ws) = programText ws := by
  by_cases hne : programText ws = []
  · rw [hne]; rfl
  · exact trim_eq_self List.prefix_rfl List.suffix_rfl hne hne (fun _ => isSpace_of_mem_programText)
      (fun _ => isSpace_of_mem_programText)

theorem programFields_programText {ws : List Nat} (hne : ws ≠ []) :
    programFields (programText ws) = ws.map decimal := by
  rw [programFields, trim_programText, splitAtChar_programText hne]

/-- A program text loads as the state of its words. -/
theorem load_programText {cfg : Config} {ws : List Nat} (hl : cfg.Legal) (hne : ws ≠ [])
    (hfit : ws.length ≤ cfg.cap) (hwords : ∀ v ∈ ws, IsWord cfg.w v) :
    load cfg (programText ws) = .loaded (initialState cfg ws) := by
  rw [load_eq_loaded_iff, programFields_programText hne]
  have hvalid : (ws.map decimal).all (fieldValid cfg.w) = true := by
    simpa using fun v hv => fieldValid_decimal (hwords v hv)
  have hvalue : (ws.map decimal).map decimalValue = ws := by simp [Function.comp_def]
  exact ⟨hl, hvalid, by simpa using hfit, by rw [hvalue]⟩

/-- Settles O48: the decimal fields spell the words. -/
theorem programTextLoadsBack : Obligations.ProgramTextLoadsBack :=
  fun _ _ hl hne hfit hwords => ⟨_, load_programText hl hne hfit hwords, rfl, rfl, memRead_initialState hfit⟩

end Sys2Proof.Machine
end

section
/-! PROOFS. The host interface (70_reset_and_hazards.md, R119 to R126): Poke, Step, Run and the result cell. -/

namespace Sys2Proof.Machine

/-! ### Poke (R120) -/

theorem poke_of_started {x : Session} (h : x.started = true ∨ x.core.status ≠ .running) (a v : Nat) :
    poke a v x = .refused .started := by
  have hguard : (x.started || decide (x.core.status ≠ .running)) = true := by simpa using h
  rw [poke, if_pos hguard]

theorem not_started_iff (x : Session) :
    ¬ (x.started || decide (x.core.status ≠ .running)) = true ↔ x.started = false ∧ x.core.status = .running := by
  simp

section BeforeTheFirstStep

variable {x : Session} {a v : Nat}

theorem poke_of_ge (hs : x.started = false) (hrun : x.core.status = .running) (ha : x.core.cfg.cap ≤ a) :
    poke a v x = .refused (.capacityExceeded a) := by
  rw [poke, if_neg ((not_started_iff x).2 ⟨hs, hrun⟩), memWrite_of_ge ha]

theorem poke_of_lt (hs : x.started = false) (hrun : x.core.status = .running) (ha : a < x.core.cfg.cap) :
    poke a v x =
      if IsWord x.core.cfg.w v then .poked { x with core := x.core.setMem (x.core.mem.write a v) }
      else .refused (.notAWord v) := by
  rw [poke, if_neg ((not_started_iff x).2 ⟨hs, hrun⟩), memWrite_of_lt ha]

/-- A Poke is taken exactly before the first step, on a Running core, of a word into an existing cell; it is one
write. -/
theorem poke_eq_poked_iff {y : Session} :
    poke a v x = .poked y ↔
      (x.started = false ∧ x.core.status = .running ∧ a < x.core.cfg.cap ∧ IsWord x.core.cfg.w v) ∧
        y = { x with core := x.core.setMem (x.core.mem.write a v) } := by
  by_cases hready : x.started = false ∧ x.core.status = .running
  · obtain ⟨hs, hrun⟩ := hready
    rcases lt_or_ge a x.core.cfg.cap with ha | ha
    · rw [poke_of_lt hs hrun ha]
      split
      · next hv => simp [hs, hrun, ha, hv, eq_comm]
      · next hv => simp [hv]
    · simp [poke_of_ge hs hrun ha, Nat.not_lt.2 ha]
  · rw [poke_of_started (by simpa [or_iff_not_imp_left] using hready)]
    exact iff_of_false (by simp) fun ⟨⟨hs, hrun, _⟩, _⟩ => hready ⟨hs, hrun⟩

theorem memRead_of_poked {y : Session} (h : poke a v x = .poked y) (b : Nat) :
    memRead y.core b = if b = a then v else memRead x.core b := by
  obtain ⟨⟨-, -, ha, -⟩, rfl⟩ := poke_eq_poked_iff.1 h
  exact memRead_setMem_write x.core ha v b

end BeforeTheFirstStep

/-- Settles O49: a Poke that is taken is one write, and Step and Run set `started`. -/
theorem pokeOnlyBeforeTheFirstStep : Obligations.PokeOnlyBeforeTheFirstStep := by
  refine fun x a v => ⟨fun h => poke_of_started h a v, poke_of_ge, fun hs hrun ha hv => ?_,
    poke_of_started (.inl rfl) a v, poke_of_started (.inl rfl) a v⟩
  have hpoke := poke_eq_poked_iff.2 ⟨⟨hs, hrun, ha, hv⟩, rfl⟩
  have hread := memRead_of_poked hpoke
  exact ⟨_, hpoke, (hread a).trans (if_pos rfl), fun b hb => (hread b).trans (if_neg hb),
    rfl, rfl, rfl, rfl, hs, rfl⟩

/-- Settles O50: a taken Poke is the write of a word into an existing cell. -/
theorem pokeKeepsInvariant : Obligations.PokeKeepsInvariant := by
  intro x y a v hi hpoke
  obtain ⟨⟨-, -, ha, hv⟩, rfl⟩ := poke_eq_poked_iff.1 hpoke
  exact hi.setMem_write ha hv

/-! ### Step and Run (R122, R124) -/

theorem stepCounts_of_stopped {s : State} (hstop : s.status ≠ .running) : stepCounts s = false := by
  simp [stepCounts, hstop]

/-- The instruction count adds up over the requested steps, stopped or not. -/
theorem instructionCount_succ (n : Nat) (s : State) :
    instructionCount (n + 1) s = (if stepCounts s then 1 else 0) + instructionCount n (advance s) := by
  by_cases hrun : s.status = .running
  · rw [instructionCount, if_pos hrun]
  · rw [instructionCount_of_stopped hrun, advance_of_stopped hrun, instructionCount_of_stopped hrun,
      stepCounts_of_stopped hrun]
    rfl

/-- Any number of Steps, but for the flag they set. -/
theorem iterate_hostStep_succ (n : Nat) (x : Session) :
    hostStep^[n + 1] x =
      { core := advance^[n + 1] x.core, started := true,
        icount := x.icount + instructionCount (n + 1) x.core } := by
  induction n generalizing x with
  | zero => rw [instructionCount_succ]; rfl
  | succ n ih =>
    rw [Function.iterate_succ_apply, ih, Function.iterate_succ_apply advance, instructionCount_succ (n + 1),
      ← Nat.add_assoc]
    rfl

/-- Settles O51: the run loop is iterated steps, and so is the instruction count. -/
theorem runIsRepeatedStep : Obligations.RunIsRepeatedStep := by
  intro x _
  rw [stepBound, iterate_hostStep_succ, ← stepBound, ← runLoop_eq_iterate_advance, ← run, ← hostRun]

/-- After the core has stopped, more steps count nothing. -/
theorem instructionCount_eq_of_le {s : State} {n m : Nat} (hstop : (advance^[n] s).status ≠ .running)
    (hle : n ≤ m) : instructionCount m s = instructionCount n s := by
  induction n generalizing s m with
  | zero => rw [instructionCount_of_stopped (s := s) hstop, instructionCount]
  | succ n ih =>
    obtain ⟨k, rfl⟩ := Nat.exists_eq_add_of_le' hle
    rw [instructionCount_succ n, ← Nat.add_assoc, instructionCount_succ, ih hstop (by omega)]

/-- Settles O52: the run from a load stops within its step bound, which is the least ceiling of R124. -/
theorem largeStepCeilingNeverCutsARun : Obligations.LargeStepCeilingNeverCutsARun := by
  intro cfg text s n hload hle
  obtain ⟨hl, rfl, hpc⟩ := legal_cfg_pc_of_load hload
  have hstop := stopped_iterate_stepBound hl
  have hbound : stepBound s ≤ n := by simpa [stepBound, hpc] using hle
  have hpos : 0 < n := by omega
  simp only [hostRunCeiling, hostRun, openSession, run, runLoop_eq_iterate_advance,
    iterate_advance_eq_of_le hstop hbound, instructionCount_eq_of_le hstop hbound, hpos, decide_true,
    Bool.false_or]

/-! ### The result cell and the two input cells (R125, R126) -/

/-- Settles O53: the two cases of R125. -/
theorem resultIsCellZeroOnceHalted : Obligations.ResultIsCellZeroOnceHalted :=
  fun _ => ⟨fun h => if_pos h, fun h => if_neg h⟩

/-- Two Pokes that are taken are followed by a Run. -/
theorem runWithInputs_of_poked {x y z : Session} {noun verb : Nat} (h1 : poke 1 noun x = .poked y)
    (h2 : poke 2 verb y = .poked z) : runWithInputs noun verb x = .ran (hostRun z) := by
  simp only [runWithInputs, h1, h2]

/-- Settles O54: the first Poke leaves the second one as possible as it was. -/
theorem inputsGoToCellsOneAndTwo : Obligations.InputsGoToCellsOneAndTwo := by
  intro x noun verb hs hrun hcap hnoun hverb
  have h1 : 1 < x.core.cfg.cap := by omega
  have h2 : 2 < x.core.cfg.cap := by omega
  have hy := poke_eq_poked_iff.2 ⟨⟨hs, hrun, h1, hnoun⟩, rfl⟩
  have hz : poke 2 verb { x with core := x.core.setMem (x.core.mem.write 1 noun) } = .poked _ :=
    poke_eq_poked_iff.2 ⟨⟨hs, hrun, h2, hverb⟩, rfl⟩
  have hread (a : Nat) : memRead _ a = if a = 2 then verb else if a = 1 then noun else memRead x.core a :=
    (memRead_of_poked hz a).trans (by rw [memRead_of_poked hy a])
  exact ⟨_, _, runWithInputs_of_poked hy hz, rfl, (hread 1).trans (by simp), (hread 2).trans (by simp),
    fun a ha1 ha2 => (hread a).trans (by simp [ha1, ha2]), rfl, rfl, rfl, rfl⟩

end Sys2Proof.Machine
end

section
/-! PROOFS. The Parameter Search (70_reset_and_hazards.md, R127, R128): it is decided by the earliest trial of the
domain that is no miss, in whatever order the trials are made. -/

namespace Sys2Proof.Machine

/-! ### The order of the domain (R127) -/

theorem earlier_iff (p q : Inputs) : earlier p q = true ↔ p.1 < q.1 ∨ (p.1 = q.1 ∧ p.2 < q.2) := by
  simp [earlier]

/-- The sequential order is the lexicographic one. -/
theorem earlier_iff_toLex_lt (p q : Inputs) : earlier p q = true ↔ toLex p < toLex q := by
  rw [earlier_iff, Prod.Lex.toLex_lt_toLex]

theorem mem_searchDomain (p : Inputs) : p ∈ searchDomain ↔ p.1 ≤ 100 ∧ p.2 ≤ 100 := by
  simp [searchDomain, Prod.ext_iff, Nat.lt_succ_iff]

/-- The domain lists earlier pairs first. -/
theorem pairwise_searchDomain : searchDomain.Pairwise (fun p q => earlier p q = true) := by
  refine List.pairwise_flatMap.2 ⟨fun noun _ => ?_, ?_⟩
  · refine List.pairwise_map.2 (List.pairwise_lt_range.imp fun h => ?_)
    exact (earlier_iff _ _).2 (.inr ⟨rfl, h⟩)
  · refine List.pairwise_lt_range.imp fun h => ?_
    simp only [List.mem_map, forall_exists_index, and_imp, forall_apply_eq_imp_iff₂]
    exact fun _ _ _ _ => (earlier_iff _ _).2 (.inl h)

/-- In a sorted list the first pair with a property is the earliest one. -/
theorem find?_eq_some_iff_earliest {ps : List Inputs} (hsorted : ps.Pairwise (fun p q => earlier p q = true))
    {P : Inputs → Bool} {p : Inputs} :
    ps.find? P = some p ↔ p ∈ ps ∧ P p = true ∧ ∀ q ∈ ps, earlier q p = true → P q = false := by
  simp only [earlier_iff_toLex_lt] at hsorted ⊢
  rw [List.find?_eq_some_iff_append]
  constructor
  · rintro ⟨hp, before, after, rfl, hbefore⟩
    refine ⟨by simp, hp, fun q hq hlt => ?_⟩
    obtain ⟨-, hafter, -⟩ := List.pairwise_append.1 hsorted
    rcases List.mem_append.1 hq with hq | hq
    · simpa using hbefore q hq
    · rcases List.mem_cons.1 hq with rfl | hq
      · exact absurd hlt (lt_irrefl _)
      · exact absurd hlt (lt_asymm (List.rel_of_pairwise_cons hafter hq))
  · rintro ⟨hmem, hp, hbefore⟩
    obtain ⟨before, after, rfl⟩ := List.append_of_mem hmem
    obtain ⟨-, -, hcross⟩ := List.pairwise_append.1 hsorted
    refine ⟨hp, before, after, rfl, fun q hq => ?_⟩
    simp [hbefore q (by simp [hq]) (hcross q hq p (by simp))]

/-! ### The first trial that decides -/

section Decides

variable (template : Session) (target : Nat)

/-- Whether the trial of `p` decides the search. -/
def decides (p : Inputs) : Bool := (trialResult p (trial template target p)).isSome

theorem decides_eq_false_iff (p : Inputs) :
    decides template target p = false ↔ trial template target p = .miss := by
  unfold decides
  cases trial template target p <;> simp [trialResult]

/-- The answer of a search whose first trial to decide is that of the given pair, if there is one. -/
def answerOf : Option Inputs → SearchResult
  | none => .noSolution
  | some p => (trialResult p (trial template target p)).getD .noSolution

theorem searchOver_eq_answerOf_find? (ps : List Inputs) :
    searchOver template target ps = answerOf template target (ps.find? (decides template target)) := by
  induction ps with
  | nil => rfl
  | cons p ps ih =>
    rw [searchOver]
    cases hp : trialResult p (trial template target p) with
    | none => rw [List.find?_cons_of_neg (by simp [decides, hp]), ← ih]
    | some r => rw [List.find?_cons_of_pos (by simp [decides, hp])]; simp [answerOf, hp]

/-- `p` is the first pair of the domain whose trial is no miss. -/
def FirstToDecide (p : Inputs) : Prop :=
  p ∈ searchDomain ∧ trial template target p ≠ .miss ∧
    ∀ q ∈ searchDomain, earlier q p = true → trial template target q = .miss

variable {template target}

theorem find?_decides_eq_some_iff {p : Inputs} :
    searchDomain.find? (decides template target) = some p ↔ FirstToDecide template target p := by
  simp only [find?_eq_some_iff_earliest pairwise_searchDomain, FirstToDecide, decides_eq_false_iff,
    ← Bool.not_eq_false]

/-- In the words of R127, with how the trial ends. -/
theorem firstToDecide_and_trial_eq_iff {noun verb : Nat} {t : Trial} (ht : t ≠ .miss) :
    FirstToDecide template target (noun, verb) ∧ trial template target (noun, verb) = t ↔
      noun ≤ 100 ∧ verb ≤ 100 ∧ trial template target (noun, verb) = t ∧
        ∀ n v, n ≤ 100 → v ≤ 100 → (n < noun ∨ (n = noun ∧ v < verb)) →
          trial template target (n, v) = .miss := by
  simp only [FirstToDecide, mem_searchDomain, earlier_iff, Prod.forall]
  constructor
  · rintro ⟨⟨⟨hnoun, hverb⟩, -, hbefore⟩, htrial⟩
    exact ⟨hnoun, hverb, htrial, fun n v hn hv => hbefore n v ⟨hn, hv⟩⟩
  · rintro ⟨hnoun, hverb, htrial, hbefore⟩
    exact ⟨⟨⟨hnoun, hverb⟩, htrial ▸ ht, fun n v ⟨hn, hv⟩ => hbefore n v hn hv⟩, htrial⟩

theorem answerOf_some_eq_iff {p : Inputs} {r : SearchResult} (hp : decides template target p = true) :
    answerOf template target (some p) = r ↔ trialResult p (trial template target p) = some r := by
  obtain ⟨q, hq⟩ := Option.isSome_iff_exists.1 hp
  simp [answerOf, hq]

/-- A search ends with an answer exactly where the first trial to decide gives it. -/
theorem search_eq_iff {r : SearchResult} (hr : r ≠ .noSolution) :
    search template target = r ↔
      ∃ p, FirstToDecide template target p ∧ trialResult p (trial template target p) = some r := by
  simp only [search, searchOver_eq_answerOf_find?, ← find?_decides_eq_some_iff]
  cases h : searchDomain.find? (decides template target) with
  | none => simp [answerOf, hr.symm]
  | some p => simp [answerOf_some_eq_iff (List.find?_some h)]

theorem trialResult_ne_noSolution (p : Inputs) (t : Trial) : trialResult p t ≠ some .noSolution := by
  cases t <;> simp [trialResult]

theorem search_eq_noSolution_iff :
    search template target = .noSolution ↔ ∀ p ∈ searchDomain, trial template target p = .miss := by
  rw [search, searchOver_eq_answerOf_find?]
  cases h : searchDomain.find? (decides template target) with
  | none => simpa [answerOf, decides_eq_false_iff] using h
  | some p =>
    obtain ⟨hmem, hp, -⟩ := find?_decides_eq_some_iff.1 h
    rw [answerOf_some_eq_iff (List.find?_some h)]
    exact iff_of_false (trialResult_ne_noSolution _ _) fun hmiss => hp (hmiss p hmem)

theorem trialResult_eq_found_iff {p : Inputs} {t : Trial} {noun verb : Nat} :
    trialResult p t = some (.found noun verb) ↔ p = (noun, verb) ∧ t = .hit := by
  cases t <;> simp [trialResult, Prod.ext_iff]

theorem trialResult_eq_aborted_iff {p : Inputs} {t : Trial} {f : Fault} :
    trialResult p t = some (.aborted f) ↔ t = .faulted f := by
  cases t <;> simp [trialResult]

end Decides

/-- Settles O55: a search ends as its first trial to decide does. -/
theorem searchReturnsFirstPair : Obligations.SearchReturnsFirstPair := by
  refine fun template target => ⟨fun noun verb => ?_, fun f => ?_, ?_⟩
  · rw [search_eq_iff (by simp), ← firstToDecide_and_trial_eq_iff (by simp)]
    simp only [trialResult_eq_found_iff]
    exact ⟨fun ⟨_, hfirst, hp, hhit⟩ => hp ▸ ⟨hfirst, hhit⟩, fun ⟨hfirst, hhit⟩ => ⟨_, hfirst, rfl, hhit⟩⟩
  · rw [search_eq_iff (by simp)]
    simp only [trialResult_eq_aborted_iff, Prod.exists]
    exact exists₂_congr fun noun verb => firstToDecide_and_trial_eq_iff (by simp)
  · simp [search_eq_noSolution_iff, mem_searchDomain]

/-! ### The parallel search (R128) -/

/-- Keeping the earlier of two pairs is the minimum of the sequential order. -/
theorem keepEarlier_some (p q : Inputs) :
    keepEarlier (some q) p = some (ofLex (min (toLex p) (toLex q))) := by
  rw [keepEarlier, min_def_lt]
  simp only [earlier_iff_toLex_lt]
  split <;> rfl

/-- The order in which two pairs come does not matter. -/
theorem keepEarlier_right_comm (best : Option Inputs) (p q : Inputs) :
    keepEarlier (keepEarlier best p) q = keepEarlier (keepEarlier best q) p := by
  cases best with
  | none =>
    have hnone (p : Inputs) : keepEarlier none p = some p := rfl
    simp only [hnone, keepEarlier_some, min_comm]
  | some r => simp only [keepEarlier_some, toLex_ofLex, min_left_comm]

theorem foldl_keepEarlier_of_forall_earlier {p : Inputs} {ps : List Inputs}
    (h : ∀ q ∈ ps, earlier p q = true) : ps.foldl keepEarlier (some p) = some p := by
  induction ps with
  | nil => rfl
  | cons q qs ih =>
    obtain ⟨hq, hqs⟩ := List.forall_mem_cons.1 h
    have hmin : min (toLex q) (toLex p) = toLex p := min_eq_right ((earlier_iff_toLex_lt p q).1 hq).le
    rw [List.foldl_cons, keepEarlier_some, hmin, ofLex_toLex, ih hqs]

/-- In a sorted list the earliest pair is the first. -/
theorem foldl_keepEarlier_of_sorted {ps : List Inputs}
    (hsorted : ps.Pairwise (fun p q => earlier p q = true)) : ps.foldl keepEarlier none = ps.head? := by
  cases ps with
  | nil => rfl
  | cons p ps => exact foldl_keepEarlier_of_forall_earlier (List.pairwise_cons.1 hsorted).1

theorem searchParallel_eq_answerOf (template : Session) (target : Nat) (finished : List Inputs) :
    searchParallel template target finished =
      answerOf template target ((finished.filter (decides template target)).foldl keepEarlier none) :=
  rfl

/-- Settles O56: the earliest pair that decides, which no order of finishing changes, is the first one of the
domain. -/
theorem parallelSearchIsSequential : Obligations.ParallelSearchIsSequential := by
  intro template target finished hperm
  have hcomm := (hperm.filter (decides template target)).foldl_eq'
    (fun p _ q _ best => keepEarlier_right_comm best p q) none
  rw [searchParallel_eq_answerOf, hcomm, foldl_keepEarlier_of_sorted (pairwise_searchDomain.filter _),
    List.head?_filter, search, searchOver_eq_answerOf_find?]

end Sys2Proof.Machine
end

section
/-! PROOFS. Two statements about the state as data (10_state.md): a canonical memory is what its reads tell, and the
reset state is well formed. -/

namespace Sys2Proof.Machine

/-! ### Reads of a canonical memory (log entry 5) -/

namespace Memory

@[simp] theorem read_cons_self (k u : Nat) (m : Memory) : Memory.read ((k, u) :: m) k = u :=
  if_pos rfl

theorem read_eq_zero_of_lt {lo a : Nat} {m : Memory} (hm : Memory.wfFrom lo m = true) (ha : a < lo) :
    m.read a = 0 := by
  induction m generalizing lo with
  | nil => rfl
  | cons c m ih =>
    obtain ⟨k, u⟩ := c
    obtain ⟨hk, -, hm⟩ := (wfFrom_cons lo k u m).1 hm
    rw [read_cons, if_neg (by omega)]
    exact ih hm (by omega)

/-- The first pair has the least address that does not read as 0. -/
theorem head_le_of_read_ne_zero {lo k u a : Nat} {m : Memory} (hm : Memory.wfFrom lo ((k, u) :: m) = true)
    (ha : Memory.read ((k, u) :: m) a ≠ 0) : k ≤ a := by
  obtain ⟨-, hu, htail⟩ := (wfFrom_cons lo k u m).1 hm
  by_contra hlt
  exact ha (read_eq_zero_of_lt ((wfFrom_cons k k u m).2 ⟨le_rfl, hu, htail⟩) (Nat.not_le.1 hlt))

/-- The pairs after the first read as the whole memory does, but for the first one's address. -/
theorem read_tail {k : Nat} {m : Memory} (hm : Memory.wfFrom (k + 1) m = true) (u a : Nat) :
    m.read a = if k = a then 0 else Memory.read ((k, u) :: m) a := by
  split
  · next hk => exact read_eq_zero_of_lt hm (by omega)
  · next hk => rw [read_cons, if_neg hk]

/-- The reads give the first pair, and with it what the others read as. -/
theorem eq_of_read_eq {lo : Nat} {m n : Memory} (hm : Memory.wfFrom lo m = true) (hn : Memory.wfFrom lo n = true)
    (hread : ∀ a, m.read a = n.read a) : m = n := by
  induction m generalizing lo n with
  | nil =>
    cases n with
    | nil => rfl
    | cons d n =>
      obtain ⟨j, v⟩ := d
      obtain ⟨-, hv, -⟩ := (wfFrom_cons lo j v n).1 hn
      exact absurd (hread j) (by simp [hv.symm])
  | cons c m ih =>
    obtain ⟨k, u⟩ := c
    obtain ⟨-, hu, hmtail⟩ := (wfFrom_cons lo k u m).1 hm
    cases n with
    | nil => exact absurd (hread k) (by simp [hu])
    | cons d n =>
      obtain ⟨j, v⟩ := d
      obtain ⟨-, hv, hntail⟩ := (wfFrom_cons lo j v n).1 hn
      have hjk : j ≤ k := head_le_of_read_ne_zero hn (by simpa [← hread k] using hu)
      have hkj : k ≤ j := head_le_of_read_ne_zero hm (by simpa [hread j] using hv)
      obtain rfl : k = j := le_antisymm hkj hjk
      obtain rfl : u = v := by simpa using hread k
      rw [ih hmtail hntail fun a => by rw [read_tail hmtail u, read_tail hntail u, hread a]]

end Memory

/-- Settles O10, by induction on the pairs. -/
theorem memoriesThatReadAlikeAreEqual : Obligations.MemoriesThatReadAlikeAreEqual :=
  fun _ _ => Memory.eq_of_read_eq

/-! ### The reset state -/

/-- Settles O34: `State.reset` is a state that a load gives. -/
theorem resetHasInvariant : Obligations.ResetHasInvariant := by
  obtain ⟨-, -, -, -, -, hload⟩ := resetState
  obtain ⟨hinv, hpc, -⟩ := loadedStateHasInvariant _ _ _ hload
  exact ⟨hinv, hpc⟩

end Sys2Proof.Machine
end
